-- ==== Sys2Proof/Config.lean ====
section
/-! DEFINITION. What is fixed for every core: the sizes of R5 and the names of the 22 rows of R64. No value of this spec is
left to an implementation (R5), so there is no free value here; the opcode NUMBERS, which a test could show wrong, stand in
one table of Decode.lean. -/

namespace Sys2Proof

namespace Config

/-- R5 `MEM_WORDS`: main memory size in words, the "memory size" of R81 and R83. -/
def memWords : Nat := 32768

/-- R5 `STACK_WORDS`: stack capacity in words. -/
def stackWords : Nat := 1024

/-- R5 `MODULUS`: the modulus of ADD, MULT and NOT. -/
def modulus : Nat := 32768

/-- R5 `MAX_PARAMS`: the largest parameter count. -/
def maxParams : Nat := 3

/-- R5 `MAX_OPCODE`: the highest defined opcode, 21 after the correction of 90_conflicts.md C1. -/
def maxOpcode : Nat := 21

@[simp] theorem memWords_eq : memWords = 32768 := rfl
@[simp] theorem stackWords_eq : stackWords = 1024 := rfl
@[simp] theorem modulus_eq : modulus = 32768 := rfl
@[simp] theorem maxParams_eq : maxParams = 3 := rfl
@[simp] theorem maxOpcode_eq : maxOpcode = 21 := rfl

end Config

/-- R2, R64: the 22 mnemonics, in the order of the table's rows. -/
inductive Mnemonic where
  | HALT | SET | PUSH | POP | EQ | GT | JMP | JT | JF | ADD | MULT
  | MOD | AND | OR | NOT | RMEM | WMEM | CALL | RET | OUT | IN | NOOP
deriving DecidableEq, Repr

end Sys2Proof
end

