-- ==== Sys2Proof/Word.lean ====
section
/-! DEFINITION. The machine's word (R20), the byte of its character ports (R148, R150), a register index (R21) and the two
forms of a parameter word (R62). -/

namespace Sys2Proof

/-- R20: every storage location of the core is a 16-bit unsigned container. -/
abbrev Word := BitVec 16

/-- R148, R150: what the character ports carry, a code 0 to 255. -/
abbrev Byte := BitVec 8

/-- R21: the register bank has exactly eight registers. -/
abbrev RegIndex := Fin 8

/-- R62: a parameter word is a register reference (bit 15 set) or a literal (bit 15 clear). The literal is kept in its
16-bit container; that it is a number 0 to 32767 is the check of WellFormed.lean. -/
inductive Operand where
  /-- Bit 15 set: register `i`. -/
  | reg (i : RegIndex)
  /-- Bit 15 clear: the number itself. -/
  | lit (v : Word)
deriving DecidableEq, Repr

end Sys2Proof
end

