-- ==== Sys2Proof/Machine/State.lean ====
section
/-! DEFINITION. Everything the spec gives the machine, as plain data (R20 to R35), its state after reset (R34, R190), and the
reasons a step can stop. -/

namespace Sys2Proof.Machine

/-- A word store: pairs of an address and the 16-bit word there, addresses strictly rising, no word 0 listed; an unlisted
address holds 0 (R34). The smallest unit the core addresses is the word (R44), so a pair is a word and not a byte
(assumption 2). Main memory and the stack's array are both held so. -/
abbrev Memory := List (Nat × Word)

/-- R27: the two run states. -/
inductive RunState where
  | running
  | halted
deriving DecidableEq, Repr

/-- R162, R165: the two payload shapes of `OutOfBounds`. -/
inductive BoundsInfo where
  /-- R162: the value of the instruction pointer. -/
  | pc (v : Word)
  /-- R165: the effective address of RMEM or WMEM. -/
  | ea (v : Word)
deriving DecidableEq, Repr

/-- R28: why the run ended, a model-only record (92_eei_decisions.md D11). R161 to R169 say who raises each. -/
inductive Cause where
  /-- R161: the HALT instruction, the normal end of a run. -/
  | halt
  /-- R162, R165: an instruction pointer or a data address above 32767. -/
  | outOfBounds (info : BoundsInfo)
  /-- R163: the word fetched as an opcode exceeds 21. -/
  | invalidOpcode (op : Word)
  /-- R164: the parameter words would lie beyond address 32767. -/
  | truncatedInstruction (op : Word)
  /-- R166: PUSH or CALL with 1024 words on the stack. -/
  | stackOverflow
  /-- R167: POP or RET with an empty stack. -/
  | stackUnderflow
  /-- R168: MOD with divisor 0. -/
  | undefinedArithmetic
  /-- R169: IN after the input stream has ended. -/
  | inputExhausted
deriving DecidableEq, Repr

/-- The state of the core (R35) with the model-only fields of R28 and R29. -/
structure State where
  /-- R21: the eight registers `x[0]` to `x[7]`. -/
  regs : Vector Word 8
  /-- R23: the instruction pointer. -/
  pc : Word
  /-- R25: main memory `M[0..32767]`. -/
  mem : Memory
  /-- R26: the array `S[0..1023]`, words at and above the depth included. -/
  stack : Memory
  /-- R26: the stack depth, 0 to 1024. -/
  sp : Nat
  /-- R27: RUNNING or HALTED. -/
  run : RunState
  /-- R28: why `run` became HALTED; none while it is RUNNING. -/
  cause : Option Cause
  /-- R29, R148: the bytes handed to the character output, oldest first. -/
  out : List Byte
  /-- R29, R150: the characters the Input Source has ready and the core has not consumed, next one first. -/
  input : List Byte
  /-- R150, R151: whether the stream ends after the characters of `input`; otherwise more may arrive. -/
  inputEnded : Bool
deriving DecidableEq, Repr

/-- Why the machine performs no step. Only `step` answers one. -/
inductive Fault where
  /-- R80, R27: the run is over; in HALTED there is no step and only reset starts a new run. Raised by `step` alone.
  Safe: nothing follows it. -/
  | halted
deriving DecidableEq, Repr

/-- Why an instruction has no meaning here. No arm of `exec` answers one: all 22 instructions are modelled. -/
inductive Refusal where
  /-- An instruction that has no meaning yet, by its mnemonic. Raised by no arm now. Safe: nothing follows it. -/
  | notModelled (mnemonic : String)
deriving DecidableEq, Repr

/-- R34, R190: the machine right after reset, with the two arguments of R6 empty: no image, so memory is all zero (R191), and
an input stream that has ended. `State.load` of Ops.lean is reset with an image and an input. -/
def State.reset : State where
  regs := Vector.replicate 8 0
  pc := 0
  mem := []
  stack := []
  sp := 0
  run := .running
  cause := none
  out := []
  input := []
  inputEnded := true

end Sys2Proof.Machine
end

