-- ==== Sys2Proof/Machine/Ops.lean ====
section
/-! DEFINITION. The named operations of R8 over memory, registers, the stack and the ports, and `raise` (R9), the one way an
exceptional condition is taken. There is no return from it: R177, HALTED is terminal and only reset starts a new run. -/

namespace Sys2Proof.Machine

/-! ### Word stores -/

/-- `M[a]` of R8: the word at an address, 0 where none is listed (R34). -/
def Memory.read : Memory → Nat → Word
  | [], _ => 0
  | (b, w) :: m, a => if a = b then w else Memory.read m a

/-- `M[a] <- v` of R8; the canonical form is kept, so writing 0 removes the entry. -/
def Memory.write : Memory → Nat → Word → Memory
  | [], a, v => if v = 0 then [] else [(a, v)]
  | (b, w) :: m, a, v =>
    if a < b then (if v = 0 then (b, w) :: m else (a, v) :: (b, w) :: m)
    else if a = b then (if v = 0 then m else (a, v) :: m)
    else (b, w) :: Memory.write m a v

/-- The canonical form of a store of `size` words: addresses below `size` and strictly rising, no word 0 listed. -/
abbrev Memory.wf (size : Nat) (m : Memory) : Prop :=
  m.Pairwise (fun c d => c.1 < d.1) ∧ ∀ c ∈ m, c.1 < size ∧ c.2 ≠ 0

/-- The store that holds a list of words from address `a` upward. -/
def Memory.ofWordsFrom (a : Nat) : List Word → Memory
  | [] => []
  | w :: ws => if w = 0 then Memory.ofWordsFrom (a + 1) ws else (a, w) :: Memory.ofWordsFrom (a + 1) ws

/-- R52: main memory initialised from the image; words beyond the capacity are dropped. -/
def Memory.ofImage (image : List Word) : Memory := Memory.ofWordsFrom 0 (image.take Config.memWords)

/-- R44, R52: the words of an image file, low byte first; an odd last byte forms no word (92_eei_decisions.md D10). -/
def imageOfBytes : List Byte → List Word
  | lo :: hi :: rest => BitVec.ofNat 16 (lo.toNat + 256 * hi.toNat) :: imageOfBytes rest
  | _ => []

/-- R6, R34, R190, R191: reset with a program image and a whole input stream. -/
def State.load (image : List Word) (input : List Byte) : State :=
  { State.reset with mem := Memory.ofImage image, input := input }

/-! ### Registers and the instruction pointer -/

/-- `x[i]` of R8 (R21). -/
def State.getReg (s : State) (i : RegIndex) : Word := s.regs[i]

/-- `x[i] <- v` of R8 (R21): nothing masks the value (R22). -/
def State.setReg (s : State) (i : RegIndex) (v : Word) : State := { s with regs := s.regs.set i v }

/-- `pc <- t` of R8 (R23): any 16-bit value (R24, R120). -/
def State.setPc (s : State) (t : Word) : State := { s with pc := t }

/-! ### The end of a run -/

/-- R9: `raise C(info)`: HALTED, the cause recorded, nothing else changed. Every exceptional condition of the machine is
taken by this one operation (R160). -/
def raise (c : Cause) (s : State) : State := { s with run := .halted, cause := some c }

/-- R171: the labels of the causes (92_eei_decisions.md D11). -/
def Cause.code : Cause → Nat
  | .halt => 0
  | .outOfBounds _ => 1
  | .invalidOpcode _ => 2
  | .truncatedInstruction _ => 3
  | .stackOverflow => 4
  | .stackUnderflow => 5
  | .undefinedArithmetic => 6
  | .inputExhausted => 7

/-- R9, R174: the end of an instruction that does its whole effect or raises: a raise keeps the state it is raised in. -/
def finish (s : State) : Except Cause State → Host.Outcome State Fault Refusal
  | .ok t => .next t
  | .error c => .next (raise c s)

/-! ### Checked memory access -/

/-- R41: `MemRead(a, 1)`. -/
def memRead (a : Word) (s : State) : Except Cause Word :=
  if a.toNat < Config.memWords then .ok (s.mem.read a.toNat) else .error (.outOfBounds (.ea a))

/-- R42: `MemWrite(a, 1, v)`. -/
def memWrite (a v : Word) (s : State) : Except Cause State :=
  if a.toNat < Config.memWords then .ok { s with mem := s.mem.write a.toNat v } else .error (.outOfBounds (.ea a))

/-! ### The stack -/

/-- R90: `Push(v)`. -/
def push (v : Word) (s : State) : Except Cause State :=
  if s.sp < Config.stackWords then .ok { s with stack := s.stack.write s.sp v, sp := s.sp + 1 } else .error .stackOverflow

/-- R91: `Pop()`, the word and the state with the depth one less; the slot keeps its content. -/
def pop (s : State) : Except Cause (Word × State) :=
  if s.sp = 0 then .error .stackUnderflow else .ok (s.stack.read (s.sp - 1), { s with sp := s.sp - 1 })

/-! ### The ports -/

/-- R148: `Out(b)`. -/
def outByte (b : Byte) (s : State) : State := { s with out := s.out ++ [b] }

/-- The answer of the Input Source to one request (R150, R151). -/
inductive InAnswer where
  /-- The next character, consumed in the state given. -/
  | char (ch : Byte) (t : State)
  /-- The stream has ended (92_eei_decisions.md D5). -/
  | eof
  /-- No character is ready and the stream has not ended. -/
  | notReady
deriving DecidableEq, Repr

/-- R150: `InNext()`. -/
def inNext (s : State) : InAnswer :=
  match s.input with
  | ch :: rest => .char ch { s with input := rest }
  | [] => if s.inputEnded then .eof else .notReady

/-- R151: the core waits in an IN: no state changes, so the instruction pointer is again that of the opcode word of the
instruction whose `len` words have been fetched (assumption 6). -/
def awaitInput (len : Nat) (s : State) : State := s.setPc (s.pc - BitVec.ofNat 16 len)

/-- R184, R192 `char_in`: what the host may do while a run goes on: let characters arrive, and say whether the stream ends
after them. No step calls it. -/
def State.supply (s : State) (chars : List Byte) (ended : Bool) : State :=
  { s with input := s.input ++ chars, inputEnded := ended }

end Sys2Proof.Machine
end

