-- ==== Sys2Proof/Machine/Operands.lean ====
section
/-! DEFINITION. Operands: how a parameter becomes a storage cell, and the read and write of a cell (R84 to R88). A meaning
runs with the instruction pointer past the instruction's words (R84, R89), so the address of a parameter word is counted
back from it. -/

namespace Sys2Proof.Machine

/-- R85: a storage cell, a register or a main-memory word. -/
inductive Cell where
  | reg (i : RegIndex)
  | mem (p : Nat)
deriving DecidableEq, Repr

/-- R84: the address of parameter word `k` (from 0) of an instruction with `n` parameters, when `pc` is past them all. -/
def paramAddr (n k : Nat) (s : State) : Nat := s.pc.toNat - n + k

/-- R84, R85: the cell of parameter `k` of `n`: the register it names, or the memory word that holds the literal
(92_eei_decisions.md D3, assumption 3). -/
def resolve (n k : Nat) (o : Operand) (s : State) : Cell :=
  match o with
  | .reg i => .reg i
  | .lit _ => .mem (paramAddr n k s)

/-- R86: `CellRead`. -/
def cellRead (c : Cell) (s : State) : Word :=
  match c with
  | .reg i => s.getReg i
  | .mem p => s.mem.read p

/-- R87: `CellWrite`: all 16 bits, one register or one memory word; it never fails. -/
def cellWrite (c : Cell) (v : Word) (s : State) : State :=
  match c with
  | .reg i => s.setReg i v
  | .mem p => { s with mem := s.mem.write p v }

/-- R86, R88: `CellRead` of a source parameter: the register's content, or the literal, which is what the memory word of a
literal parameter holds whenever a step runs the instruction (R86; assumption 4). -/
def value (o : Operand) (s : State) : Word :=
  match o with
  | .reg i => s.getReg i
  | .lit v => v

end Sys2Proof.Machine
end

