-- ==== Sys2Proof/Machine/Alu.lean ====
section
/-! DEFINITION. ADD, MULT, MOD, AND, OR, NOT (44_alu.md). The results are computed on natural numbers and narrowed where the
table of R125 says so: ADD, MULT and NOT reduce modulo 32768, MOD, AND and OR do not (90_conflicts.md C2). -/

namespace Sys2Proof.Machine

/-- R125, R126: `(vb + vc) mod 32768`. -/
def addResult (vb vc : Word) : Word := BitVec.ofNat 16 ((vb.toNat + vc.toNat) % Config.modulus)

/-- R125, R127: `(vb * vc) mod 32768`. -/
def multResult (vb vc : Word) : Word := BitVec.ofNat 16 ((vb.toNat * vc.toNat) % Config.modulus)

/-- R125, R128: `vb mod vc`, the unsigned remainder, not reduced. Used only with `vc` not 0. -/
def modResult (vb vc : Word) : Word := BitVec.ofNat 16 (vb.toNat % vc.toNat)

/-- R125, R129: `vb & vc` on 16 bits. -/
def andResult (vb vc : Word) : Word := vb &&& vc

/-- R125, R130: `vb | vc` on 16 bits. -/
def orResult (vb vc : Word) : Word := vb ||| vc

/-- R125, R131: `(~vb) mod 32768`. -/
def notResult (vb : Word) : Word := BitVec.ofNat 16 ((~~~vb).toNat % Config.modulus)

/-- R126. -/
def execAdd (a b c : Operand) (s : State) : Host.Outcome State Fault Refusal :=
  .next (cellWrite (resolve 3 0 a s) (addResult (value b s) (value c s)) s)

/-- R127. -/
def execMult (a b c : Operand) (s : State) : Host.Outcome State Fault Refusal :=
  .next (cellWrite (resolve 3 0 a s) (multResult (value b s) (value c s)) s)

/-- R128: a zero divisor raises `UndefinedArithmetic` and nothing is written (92_eei_decisions.md D4). -/
def execMod (a b c : Operand) (s : State) : Host.Outcome State Fault Refusal :=
  if (value c s).toNat = 0 then .next (raise .undefinedArithmetic s)
  else .next (cellWrite (resolve 3 0 a s) (modResult (value b s) (value c s)) s)

/-- R129. -/
def execAnd (a b c : Operand) (s : State) : Host.Outcome State Fault Refusal :=
  .next (cellWrite (resolve 3 0 a s) (andResult (value b s) (value c s)) s)

/-- R130. -/
def execOr (a b c : Operand) (s : State) : Host.Outcome State Fault Refusal :=
  .next (cellWrite (resolve 3 0 a s) (orResult (value b s) (value c s)) s)

/-- R131. -/
def execNot (a b : Operand) (s : State) : Host.Outcome State Fault Refusal :=
  .next (cellWrite (resolve 2 0 a s) (notResult (value b s)) s)

end Sys2Proof.Machine
end

