-- ==== Sys2Proof/Machine/Flags.lean ====
section
/-! DEFINITION. The machine has no flag, condition code or predicate (R30): a comparison is an ordinary word, 0 or 1, and JT
and JF test an ordinary word. These are those computations, all on the 16-bit unsigned values (92_eei_decisions.md D17). -/

namespace Sys2Proof.Machine

/-- The word that stands for a truth value (R110, R111). -/
def boolWord (b : Bool) : Word := if b then 1 else 0

/-- R110: `(vb == vc) ? 1 : 0`. -/
def eqResult (vb vc : Word) : Word := boolWord (vb.toNat == vc.toNat)

/-- R111: `(vb > vc) ? 1 : 0`, unsigned and strict. -/
def gtResult (vb vc : Word) : Word := boolWord (vc.toNat < vb.toNat)

/-- R116, R117: a word is true when any of its 16 bits is set. -/
def wordIsTrue (v : Word) : Bool := v.toNat != 0

end Sys2Proof.Machine
end

