-- ==== Sys2Proof/Machine/Compare.lean ====
section
/-! DEFINITION. EQ, GT (42_compare.md). -/

namespace Sys2Proof.Machine

/-- R110: `CellWrite(a, (vb == vc) ? 1 : 0)`. -/
def execEq (a b c : Operand) (s : State) : Host.Outcome State Fault Refusal :=
  .next (cellWrite (resolve 3 0 a s) (eqResult (value b s) (value c s)) s)

/-- R111: `CellWrite(a, (vb > vc) ? 1 : 0)`. -/
def execGt (a b c : Operand) (s : State) : Host.Outcome State Fault Refusal :=
  .next (cellWrite (resolve 3 0 a s) (gtResult (value b s) (value c s)) s)

end Sys2Proof.Machine
end

