-- ==== Sys2Proof/Machine/Control.lean ====
section
/-! DEFINITION. JMP, JT, JF, CALL, RET (43_control.md). A target is any 16-bit value and is not checked here (R120): a target
of 32768 or more ends the run at the next step. -/

namespace Sys2Proof.Machine

/-- R115: `pc <- CellRead(a)`. -/
def execJmp (a : Operand) (s : State) : Host.Outcome State Fault Refusal :=
  .next (s.setPc (value a s))

/-- R116: `if va != 0 then pc <- vb`. -/
def execJt (a b : Operand) (s : State) : Host.Outcome State Fault Refusal :=
  .next (if wordIsTrue (value a s) then s.setPc (value b s) else s)

/-- R117: `if va == 0 then pc <- vb`. -/
def execJf (a b : Operand) (s : State) : Host.Outcome State Fault Refusal :=
  .next (if wordIsTrue (value a s) then s else s.setPc (value b s))

/-- R118: `t <- CellRead(a); Push(pc); pc <- t`, the `pc` pushed being that of the next sequential instruction. -/
def execCall (a : Operand) (s : State) : Host.Outcome State Fault Refusal :=
  finish s ((push s.pc s).map fun t => t.setPc (value a s))

/-- R119: `pc <- Pop()`. -/
def execRet (s : State) : Host.Outcome State Fault Refusal :=
  finish s ((pop s).map fun r => r.2.setPc r.1)

end Sys2Proof.Machine
end

