-- ==== Sys2Proof/Machine/MemoryAccess.lean ====
section
/-! DEFINITION. RMEM, WMEM (45_memory.md). The effective address is the value of a source cell (R142). -/

namespace Sys2Proof.Machine

/-- R140: `ea <- CellRead(b); v <- MemRead(ea, 1); CellWrite(a, v)`. -/
def execRmem (a b : Operand) (s : State) : Host.Outcome State Fault Refusal :=
  finish s ((memRead (value b s) s).map fun v => cellWrite (resolve 2 0 a s) v s)

/-- R141: `ea <- CellRead(a); v <- CellRead(b); MemWrite(ea, 1, v)`. -/
def execWmem (a b : Operand) (s : State) : Host.Outcome State Fault Refusal :=
  finish s (memWrite (value a s) (value b s) s)

end Sys2Proof.Machine
end

