-- ==== Sys2Proof/Machine/MoveStack.lean ====
section
/-! DEFINITION. SET, PUSH, POP (41_move_stack.md). Each runs with `pc` already at the next sequential instruction (R89). -/

namespace Sys2Proof.Machine

/-- R100: `CellWrite(a, CellRead(b))`, all 16 bits. -/
def execSet (a b : Operand) (s : State) : Host.Outcome State Fault Refusal :=
  .next (cellWrite (resolve 2 0 a s) (value b s) s)

/-- R101: `Push(CellRead(a))`. -/
def execPush (a : Operand) (s : State) : Host.Outcome State Fault Refusal :=
  finish s (push (value a s) s)

/-- R102: `v <- Pop(); CellWrite(a, v)`. -/
def execPop (a : Operand) (s : State) : Host.Outcome State Fault Refusal :=
  finish s ((pop s).map fun r => cellWrite (resolve 1 0 a s) r.1 r.2)

end Sys2Proof.Machine
end

