-- ==== Sys2Proof/Machine/SystemIo.lean ====
section
/-! DEFINITION. HALT, NOOP, OUT, IN (46_system_io.md). -/

namespace Sys2Proof.Machine

/-- R145: `raise Halt`. -/
def execHalt (s : State) : Host.Outcome State Fault Refusal := .next (raise .halt s)

/-- R146: nothing. -/
def execNoop (s : State) : Host.Outcome State Fault Refusal := .next s

/-- R147: `Out(va[7:0])`: a value above 255 emits its low 8 bits (92_eei_decisions.md D7). -/
def execOut (a : Operand) (s : State) : Host.Outcome State Fault Refusal :=
  .next (outByte ((value a s).setWidth 8) s)

/-- R149: one character into a cell, zero-extended (92_eei_decisions.md D6); `InputExhausted` when the stream has ended
(D5); with nothing ready the core waits and no state changes (R151). -/
def execIn (a : Operand) (s : State) : Host.Outcome State Fault Refusal :=
  match inNext s with
  | .char ch t => .next (cellWrite (resolve 1 0 a s) (ch.setWidth 16) t)
  | .eof => .next (raise .inputExhausted s)
  | .notReady => .next (awaitInput 2 s)

end Sys2Proof.Machine
end

