-- ==== Sys2Proof/Syntax.lean ====
section
/-! DEFINITION. The instructions, one constructor per row of the opcode table (R64), each with its parameters in the order
of their words in memory (R60). IN is the constructor `inp`, since `in` is a word of Lean's own. -/

namespace Sys2Proof

/-- The 22 instructions of R2 and R64; the parameters are `a`, `b`, `c` from left to right. -/
inductive Instr where
  | halt
  | set (a b : Operand)
  | push (a : Operand)
  | pop (a : Operand)
  | eq (a b c : Operand)
  | gt (a b c : Operand)
  | jmp (a : Operand)
  | jt (a b : Operand)
  | jf (a b : Operand)
  | add (a b c : Operand)
  | mult (a b c : Operand)
  | mod (a b c : Operand)
  | and (a b c : Operand)
  | or (a b c : Operand)
  | not (a b : Operand)
  | rmem (a b : Operand)
  | wmem (a b : Operand)
  | call (a : Operand)
  | ret
  | out (a : Operand)
  | inp (a : Operand)
  | noop
deriving DecidableEq, Repr

/-- The row of R64 an instruction stands in. -/
def Instr.mnemonic : Instr → Mnemonic
  | .halt => .HALT
  | .set _ _ => .SET
  | .push _ => .PUSH
  | .pop _ => .POP
  | .eq _ _ _ => .EQ
  | .gt _ _ _ => .GT
  | .jmp _ => .JMP
  | .jt _ _ => .JT
  | .jf _ _ => .JF
  | .add _ _ _ => .ADD
  | .mult _ _ _ => .MULT
  | .mod _ _ _ => .MOD
  | .and _ _ _ => .AND
  | .or _ _ _ => .OR
  | .not _ _ => .NOT
  | .rmem _ _ => .RMEM
  | .wmem _ _ => .WMEM
  | .call _ => .CALL
  | .ret => .RET
  | .out _ => .OUT
  | .inp _ => .IN
  | .noop => .NOOP

/-- The parameters of an instruction, first parameter word first (R60, R10). -/
def Instr.operands : Instr → List Operand
  | .halt | .ret | .noop => []
  | .push a | .pop a | .jmp a | .call a | .out a | .inp a => [a]
  | .set a b | .jt a b | .jf a b | .not a b | .rmem a b | .wmem a b => [a, b]
  | .eq a b c | .gt a b c | .add a b c | .mult a b c | .mod a b c | .and a b c | .or a b c => [a, b, c]

/-- R60: the number of words an instruction takes, the opcode word and one word a parameter. -/
def Instr.length (i : Instr) : Nat := 1 + i.operands.length

end Sys2Proof
end

