-- ==== Sys2Proof/WellFormed.lean ====
section
/-! DEFINITION. Which instructions the encoding can express: every literal is a number 0 to 32767 (R62, R20). A register
index is in range by its type (R21), and any operand may be of either form in any position (R65, R68, R69), so there is no
other check. -/

namespace Sys2Proof

/-- R62: a literal parameter has bit 15 clear, so it is at most 32767. -/
def Operand.wf : Operand → Bool
  | .reg _ => true
  | .lit v => v.toNat < 32768

/-- An instruction is well formed when each of its literals is a number of the machine (R62). -/
def Instr.wf (i : Instr) : Bool := i.operands.all Operand.wf

end Sys2Proof
end

