-- ==== Sys2Proof/Decode.lean ====
section
/-! DEFINITION. The decoder (R60 to R69, R82 to R84), total on any list of words and rejecting by name; after it the encoder
(R72), both over the one table of opcode numbers and parameter counts (R64). -/

namespace Sys2Proof

/-- R64, the opcode numbers: the rows of the table numbered in printed order from 0 (92_eei_decisions.md D1, assumption 1;
that 21 is NOOP is 90_conflicts.md C1). This is the only place where the numbers stand. -/
def Mnemonic.opcode : Mnemonic → Nat
  | .HALT => 0
  | .SET => 1
  | .PUSH => 2
  | .POP => 3
  | .EQ => 4
  | .GT => 5
  | .JMP => 6
  | .JT => 7
  | .JF => 8
  | .ADD => 9
  | .MULT => 10
  | .MOD => 11
  | .AND => 12
  | .OR => 13
  | .NOT => 14
  | .RMEM => 15
  | .WMEM => 16
  | .CALL => 17
  | .RET => 18
  | .OUT => 19
  | .IN => 20
  | .NOOP => 21

/-- R64, the parameter counts (RET's "—" is 0: 90_conflicts.md C4). -/
def Mnemonic.nparams : Mnemonic → Nat
  | .HALT | .RET | .NOOP => 0
  | .PUSH | .POP | .JMP | .CALL | .OUT | .IN => 1
  | .SET | .JT | .JF | .NOT | .RMEM | .WMEM => 2
  | .EQ | .GT | .ADD | .MULT | .MOD | .AND | .OR => 3

/-- The rows of R64 in printed order. -/
def allMnemonics : List Mnemonic :=
  [.HALT, .SET, .PUSH, .POP, .EQ, .GT, .JMP, .JT, .JF, .ADD, .MULT,
   .MOD, .AND, .OR, .NOT, .RMEM, .WMEM, .CALL, .RET, .OUT, .IN, .NOOP]

/-- R61: the row an opcode word selects, all 16 bits taking part; none when the word exceeds `MAX_OPCODE`. -/
def mnemonicOf (op : Word) : Option Mnemonic := allMnemonics.find? fun m => m.opcode == op.toNat

/-- R62, R67: bit 15 set names register `w & 7`, bits 14:3 ignored; bit 15 clear is the literal `w`. -/
def decodeOperand (w : Word) : Operand :=
  if w.getLsbD 15 then .reg ⟨w.toNat % 8, Nat.mod_lt _ (by decide)⟩ else .lit w

/-- An instruction from its row and its parameters; none for a wrong number of parameters. -/
def buildInstr : Mnemonic → List Operand → Option Instr
  | .HALT, [] => some .halt
  | .SET, [a, b] => some (.set a b)
  | .PUSH, [a] => some (.push a)
  | .POP, [a] => some (.pop a)
  | .EQ, [a, b, c] => some (.eq a b c)
  | .GT, [a, b, c] => some (.gt a b c)
  | .JMP, [a] => some (.jmp a)
  | .JT, [a, b] => some (.jt a b)
  | .JF, [a, b] => some (.jf a b)
  | .ADD, [a, b, c] => some (.add a b c)
  | .MULT, [a, b, c] => some (.mult a b c)
  | .MOD, [a, b, c] => some (.mod a b c)
  | .AND, [a, b, c] => some (.and a b c)
  | .OR, [a, b, c] => some (.or a b c)
  | .NOT, [a, b] => some (.not a b)
  | .RMEM, [a, b] => some (.rmem a b)
  | .WMEM, [a, b] => some (.wmem a b)
  | .CALL, [a] => some (.call a)
  | .RET, [] => some .ret
  | .OUT, [a] => some (.out a)
  | .IN, [a] => some (.inp a)
  | .NOOP, [] => some .noop
  | _, _ => none

/-- Why a list of words is no instruction. -/
inductive Reject where
  /-- There is no opcode word at all. -/
  | noOpcodeWord
  /-- R66: the opcode word is 22 to 65535. -/
  | invalidOpcode (op : Word)
  /-- R83: fewer words follow than the opcode has parameters. -/
  | truncated (op : Word)
deriving DecidableEq, Repr

/-- R60 to R63, in the order of R92: look the opcode word up, then take its parameter words from left to right. Answers the
instruction and the words after it. -/
def decode : List Word → Except Reject (Instr × List Word)
  | [] => .error .noOpcodeWord
  | op :: rest =>
    match mnemonicOf op with
    | none => .error (.invalidOpcode op)
    | some m =>
      if rest.length < m.nparams then .error (.truncated op)
      else
        match buildInstr m ((rest.take m.nparams).map decodeOperand) with
        | some i => .ok (i, rest.drop m.nparams)
        | none => .error (.truncated op)

/-- R72: `encop`, the canonical parameter word of an operand (R67). -/
def encodeOperand : Operand → Word
  | .reg i => BitVec.ofNat 16 (32768 + i.val)
  | .lit v => v

/-- R61, R64: the opcode word of a row. -/
def Mnemonic.opcodeWord (m : Mnemonic) : Word := BitVec.ofNat 16 m.opcode

/-- R72: `enc`, the words of an instruction, opcode word first. -/
def encode (i : Instr) : List Word := i.mnemonic.opcodeWord :: i.operands.map encodeOperand

/-- The words of an instruction whose bits are `w`, numbered as spec/opcode_table.json numbers them: bit 0 is the least
significant bit of the first word, word `k` is bits `16k+15` to `16k`, and the bits from `nbits` on are 0. As many words as
the longest instruction has (R60). -/
def tableWords (nbits w : Nat) : List Word :=
  (List.range (1 + Config.maxParams)).map fun k => BitVec.ofNat 16 (w % 2 ^ nbits / 2 ^ (16 * k))

/-- The instruction the decoder reads from the table's bits. -/
def decodeTableWord (nbits w : Nat) : Option Instr :=
  match decode (tableWords nbits w) with
  | .ok (i, _) => some i
  | .error _ => none

end Sys2Proof
end

