-- ==== Sys2Proof/Machine/Fetch.lean ====
section
/-! DEFINITION. The front end all instructions share: steps 1 to 4 of the dispatch loop (R81 to R84, R92). -/

namespace Sys2Proof.Machine

/-- The words an instruction at `p` could take: from `p` upward, as many as the longest instruction has, none beyond the end
of memory (R83). There is none exactly when `p` is 32768 or more. -/
def codeWindow (m : Memory) (p : Nat) : List Word :=
  (List.range (min (1 + Config.maxParams) (Config.memWords - p))).map fun k => m.read (p + k)

/-- R81 to R84: the instruction at `pc` with the address after its last word, or the cause raised with the value `pc` is left
at (R172): unchanged for `OutOfBounds` and `InvalidOpcode`, one further for `TruncatedInstruction`. -/
def fetch (s : State) : Except (Cause × Word) (Instr × Word) :=
  match decode (codeWindow s.mem s.pc.toNat) with
  | .error .noOpcodeWord => .error (.outOfBounds (.pc s.pc), s.pc)
  | .error (.invalidOpcode op) => .error (.invalidOpcode op, s.pc)
  | .error (.truncated op) => .error (.truncatedInstruction op, s.pc + 1)
  | .ok (i, _) => .ok (i, s.pc + BitVec.ofNat 16 i.length)

end Sys2Proof.Machine
end

