-- ==== Sys2Proof/Machine/Step.lean ====
section
/-! DEFINITION. One step of the core (R80, R92), and the placing of one instruction where the next step fetches. -/

namespace Sys2Proof.Machine

/-- R80, R92: in HALTED there is no step; in RUNNING fetch the instruction, move `pc` past its words and execute it, or end
the run with the cause the fetch raises. -/
def step (s : State) : Host.Outcome State Fault Refusal :=
  match s.run with
  | .halted => .fault .halted
  | .running =>
    match fetch s with
    | .error (c, p) => .next (raise c (s.setPc p))
    | .ok (i, p) => exec i (s.setPc p)

/-- Words stored from an address upward. -/
def placeWords (m : Memory) (p : Nat) : List Word → Memory
  | [] => m
  | w :: ws => placeWords (m.write p w) (p + 1) ws

/-- Where the next instruction is placed: at `pc`, or at 0 where the longest instruction would not fit there. -/
def placeAddr (s : State) : Word := if s.pc.toNat + (1 + Config.maxParams) ≤ Config.memWords then s.pc else 0

/-- `s` with one instruction (the words of `tableWords`) stored where the next step fetches, and RUNNING (with no cause, R28)
so that there is a next step. The image that really loads a program is `State.load` (R52; assumption 7). -/
def State.withFetchWord (s : State) (nbits w : Nat) : State :=
  { s with
    pc := placeAddr s
    mem := placeWords s.mem (placeAddr s).toNat (tableWords nbits w)
    run := .running
    cause := none }

end Sys2Proof.Machine
end

