-- ==== Sys2Proof/Safety.lean ====
section
/-! DEFINITION. The terms of the claims: the invariant of the machine, when a step raises a cause and which, what a safe step
is, and the one storage cell an instruction may write. -/

namespace Sys2Proof.Machine

/-- The invariant of the machine: both stores in canonical form within their sizes (R25, R26), the depth at most 1024 (R26),
and a cause recorded exactly in HALTED (R28). -/
abbrev State.Inv (s : State) : Prop :=
  s.mem.wf Config.memWords ∧ s.stack.wf Config.stackWords ∧ s.sp ≤ Config.stackWords ∧ (s.run = .halted ↔ s.cause ≠ none)

/-- R173, the execution causes: the cause an instruction raises in the state its rule runs in, none when it completes or is
an IN that waits (R151). -/
def execCause (i : Instr) (s : State) : Option Cause :=
  match i with
  | .halt => some .halt
  | .push _ | .call _ => if s.sp < 1024 then none else some .stackOverflow
  | .pop _ | .ret => if s.sp = 0 then some .stackUnderflow else none
  | .mod _ _ c => if (value c s).toNat = 0 then some .undefinedArithmetic else none
  | .rmem _ b => if (value b s).toNat ≤ 32767 then none else some (.outOfBounds (.ea (value b s)))
  | .wmem a _ => if (value a s).toNat ≤ 32767 then none else some (.outOfBounds (.ea (value a s)))
  | .inp _ => if s.input = [] ∧ s.inputEnded = true then some .inputExhausted else none
  | .set _ _ | .eq _ _ _ | .gt _ _ _ | .jmp _ | .jt _ _ | .jf _ _ | .add _ _ _ | .mult _ _ _ | .and _ _ _
  | .or _ _ _ | .not _ _ | .out _ | .noop => none

/-- R173, the priority of all conditions: the cause a step from a RUNNING state raises, none when its instruction
completes or is an IN that waits (R151). -/
def stepCause (s : State) : Option Cause :=
  if 32768 ≤ s.pc.toNat then some (.outOfBounds (.pc s.pc))
  else
    match mnemonicOf (s.mem.read s.pc.toNat) with
    | none => some (.invalidOpcode (s.mem.read s.pc.toNat))
    | some m =>
      if 32768 < s.pc.toNat + 1 + m.nparams then some (.truncatedInstruction (s.mem.read s.pc.toNat))
      else
        match fetch s with
        | .ok (i, p) => execCause i (s.setPc p)
        | .error _ => none

/-- R160, R161: a step is safe when the run has not ended and the step raises no failure; HALT is no failure. -/
def State.SafeStep (s : State) : Prop := s.run = .running ∧ (stepCause s = none ∨ stepCause s = some .halt)

/-- R151: an IN that waits: nothing is ready and the stream has not ended. -/
def waits (i : Instr) (s : State) : Prop := i.mnemonic = .IN ∧ s.input = [] ∧ s.inputEnded = false

/-- R65, R141: the storage cell an instruction may write: that of its destination parameter, which is always the first (R64),
or the memory word at WMEM's effective address. -/
def writtenCell (i : Instr) (s : State) : Option Cell :=
  match i with
  | .pop a | .inp a => some (resolve 1 0 a s)
  | .set a _ | .not a _ | .rmem a _ => some (resolve 2 0 a s)
  | .eq a _ _ | .gt a _ _ | .add a _ _ | .mult a _ _ | .mod a _ _ | .and a _ _ | .or a _ _ => some (resolve 3 0 a s)
  | .wmem a _ => some (.mem (value a s).toNat)
  | .halt | .push _ | .jmp _ | .jt _ _ | .jf _ _ | .call _ | .ret | .out _ | .noop => none

end Sys2Proof.Machine
end

