-- ==== Sys2Proof/Certificates/Slice0/Obligations.lean ====
section
/-! DEFINITION. The statements for the provers. An instruction's own statement speaks of `exec` in the state its rule runs in,
where `pc` is already past the instruction's words (R84, R89); `StepRunsDecodedInstruction` says that a step is that. Where a
statement rests on a decision of 92_eei_decisions.md or on a convention of this model, its docstring names it. -/

namespace Sys2Proof.Claims

open Sys2Proof.Machine

/-- No register changed. -/
abbrev SameRegs (s t : State) : Prop := ∀ i, t.getReg i = s.getReg i
/-- Every word of main memory reads as before. -/
abbrev SameMem (s t : State) : Prop := ∀ p, t.mem.read p = s.mem.read p
/-- The depth and every word of the stack as before, those at and above the depth included. -/
abbrev SameStack (s t : State) : Prop := t.sp = s.sp ∧ ∀ k, t.stack.read k = s.stack.read k
/-- Both ports as before. -/
abbrev SamePorts (s t : State) : Prop := t.out = s.out ∧ t.input = s.input ∧ t.inputEnded = s.inputEnded
/-- The run state and the cause as before. -/
abbrev SameRun (s t : State) : Prop := t.run = s.run ∧ t.cause = s.cause

/-- `t` holds `v` in cell `c`; every other register and every other memory word is as in `s`. -/
abbrev CellsAfterWrite (c : Cell) (v : Word) (s t : State) : Prop :=
  (∀ i, t.getReg i = if c = .reg i then v else s.getReg i) ∧ (∀ p, t.mem.read p = if c = .mem p then v else s.mem.read p)

/-- From `s` to `t` cell `c` received `v` and nothing else changed at all. -/
abbrev WritesOnly (c : Cell) (v : Word) (s t : State) : Prop :=
  CellsAfterWrite c v s t ∧ t.pc = s.pc ∧ SameStack s t ∧ SameRun s t ∧ SamePorts s t

/-- From `s` to `t` the run ended with cause `c` and nothing else changed at all (R9, R174). -/
abbrev RaisesOnly (c : Cause) (s t : State) : Prop :=
  t.run = .halted ∧ t.cause = some c ∧ t.pc = s.pc ∧ SameRegs s t ∧ SameMem s t ∧ SameStack s t ∧ SamePorts s t

/-- From `s` to `t` the instruction pointer became `v` and nothing else changed at all. -/
abbrev JumpsOnly (v : Word) (s t : State) : Prop :=
  t.pc = v ∧ SameRegs s t ∧ SameMem s t ∧ SameStack s t ∧ SameRun s t ∧ SamePorts s t

/-- From `s` to `t` word `v` was put on top of the stack and `pc` became `q`; nothing else changed at all. -/
abbrev PushesOnly (v q : Word) (s t : State) : Prop :=
  t.sp = s.sp + 1 ∧ (∀ k, t.stack.read k = if k = s.sp then v else s.stack.read k) ∧ t.pc = q ∧
    SameRegs s t ∧ SameMem s t ∧ SameRun s t ∧ SamePorts s t

/-- Two states that differ at most in stack words at or above the depth. -/
abbrev AgreeBelowDepth (s t : State) : Prop :=
  t.regs = s.regs ∧ t.pc = s.pc ∧ t.mem = s.mem ∧ t.sp = s.sp ∧ t.run = s.run ∧ t.cause = s.cause ∧ t.out = s.out ∧
    t.input = s.input ∧ t.inputEnded = s.inputEnded ∧ ∀ k, k < s.sp → t.stack.read k = s.stack.read k

/-- `s` with bytes put before everything its output trace holds. -/
abbrev withEarlierOutput (o : List Byte) (s : State) : State := { s with out := o ++ s.out }

/-- R173: which causes an instruction of each row may raise, at most one for each row. -/
def rowRaises (m : Mnemonic) (c : Cause) : Prop :=
  match m with
  | .HALT => c = .halt
  | .PUSH | .CALL => c = .stackOverflow
  | .POP | .RET => c = .stackUnderflow
  | .RMEM | .WMEM => ∃ ea : Word, 32767 < ea.toNat ∧ c = .outOfBounds (.ea ea)
  | .MOD => c = .undefinedArithmetic
  | .IN => c = .inputExhausted
  | .SET | .EQ | .GT | .JMP | .JT | .JF | .ADD | .MULT | .AND | .OR | .NOT | .OUT | .NOOP => False

/-- R172: the value of `pc` in HALTED, counted from the address the step began at. -/
def haltedPc (m : Option Mnemonic) (start : Word) (c : Cause) : Word :=
  match c with
  | .outOfBounds (.pc _) => start
  | .invalidOpcode _ => start
  | .truncatedInstruction _ => start + 1
  | .halt => start + 1
  | .stackOverflow => start + 2
  | .stackUnderflow => if m = some .RET then start + 1 else start + 2
  | .outOfBounds (.ea _) => start + 3
  | .undefinedArithmetic => start + 4
  | .inputExhausted => start + 2

end Sys2Proof.Claims

open Sys2Proof Sys2Proof.Machine Sys2Proof.Claims

/-! ## Encoding and decoding -/

/-- R72 with R60, R62, R64: the words of a well-formed instruction decode to it, whatever follows them, and what follows is
left over. The opcode numbers are decision D1 (assumption 1). -/
def Obligations.DecodeOfEncodeIsTheInstruction : Prop :=
  ∀ (i : Instr) (rest : List Word), i.wf = true → decode (encode i ++ rest) = .ok (i, rest)

/-- The example words of the 22 instruction rules (R100 to R149) and F16 of 95_test_vectors.md decode to the instructions
they stand for (opcode numbers: decision D1, assumption 1). -/
def Obligations.ExampleWordsDecode : Prop :=
  decode [0] = .ok (.halt, []) ∧ decode [1, 32768, 4] = .ok (.set (.reg 0) (.lit 4), []) ∧
  decode [2, 17] = .ok (.push (.lit 17), []) ∧ decode [3, 32768] = .ok (.pop (.reg 0), []) ∧
  decode [4, 32768, 32769, 5] = .ok (.eq (.reg 0) (.reg 1) (.lit 5), []) ∧
  decode [5, 32768, 7, 3] = .ok (.gt (.reg 0) (.lit 7) (.lit 3), []) ∧
  decode [6, 100] = .ok (.jmp (.lit 100), []) ∧ decode [7, 32768, 50] = .ok (.jt (.reg 0) (.lit 50), []) ∧
  decode [8, 32768, 50] = .ok (.jf (.reg 0) (.lit 50), []) ∧
  decode [9, 32769, 32769, 32768] = .ok (.add (.reg 1) (.reg 1) (.reg 0), []) ∧
  decode [10, 32768, 300, 200] = .ok (.mult (.reg 0) (.lit 300) (.lit 200), []) ∧
  decode [11, 32768, 17, 5] = .ok (.mod (.reg 0) (.lit 17) (.lit 5), []) ∧
  decode [12, 32768, 12, 10] = .ok (.and (.reg 0) (.lit 12) (.lit 10), []) ∧
  decode [13, 32768, 12, 10] = .ok (.or (.reg 0) (.lit 12) (.lit 10), []) ∧
  decode [14, 32768, 21845] = .ok (.not (.reg 0) (.lit 21845), []) ∧
  decode [15, 32768, 100] = .ok (.rmem (.reg 0) (.lit 100), []) ∧
  decode [16, 100, 32768] = .ok (.wmem (.lit 100) (.reg 0), []) ∧ decode [17, 200] = .ok (.call (.lit 200), []) ∧
  decode [18] = .ok (.ret, []) ∧ decode [19, 65] = .ok (.out (.lit 65), []) ∧
  decode [20, 32768] = .ok (.inp (.reg 0), []) ∧ decode [21] = .ok (.noop, []) ∧
  decode [1, 65535, 32777] = .ok (.set (.reg 7) (.reg 1), [])

/-- R62, R67, R69: every 16-bit parameter word is a register reference or a literal and none is illegal: bit 15 set names
register `w & 7` whatever bits 14:3 are, bit 15 clear is the number itself, used as it stands; the canonical references are
32768 + `i`. -/
def Obligations.ParameterWordForms : Prop :=
  (∀ w : Word, 32768 ≤ w.toNat → ∃ i : RegIndex, decodeOperand w = .reg i ∧ i.val = (w &&& 7).toNat ∧
    ∀ s : State, value (decodeOperand w) s = s.getReg i) ∧
  (∀ w : Word, w.toNat < 32768 → decodeOperand w = .lit w ∧ ∀ s : State, value (decodeOperand w) s = w) ∧
  (∀ i : RegIndex, (encodeOperand (.reg i)).toNat = 32768 + i.val ∧ decodeOperand (encodeOperand (.reg i)) = .reg i)

/-- R61, R63, R64, R66, with R83's truncation: an opcode word above 21 is rejected whatever follows; any other selects one
row, and the row alone fixes how many words are taken, each parameter word being decoded by itself. (The bound 21 is
90_conflicts.md C1; the numbers are decision D1, assumption 1.) -/
def Obligations.OpcodeWordSelectsRowAndLength : Prop :=
  ∀ (op : Word) (ps : List Word),
    (21 < op.toNat → decode (op :: ps) = .error (.invalidOpcode op)) ∧
    (op.toNat ≤ 21 → ∃ m : Mnemonic, m.opcode = op.toNat ∧
      (ps.length < m.nparams → decode (op :: ps) = .error (.truncated op)) ∧
      (m.nparams ≤ ps.length → ∃ i : Instr, i.mnemonic = m ∧ decode (op :: ps) = .ok (i, ps.drop m.nparams) ∧
        i.operands = (ps.take m.nparams).map decodeOperand))

/-- R62, R64: whatever the decoder answers is a well-formed instruction, and it and the words left over account for all the
words given. -/
def Obligations.DecodedInstructionsAreWellFormed : Prop :=
  ∀ (ws rest : List Word) (i : Instr), decode ws = .ok (i, rest) →
    i.wf = true ∧ ws.length = i.length + rest.length ∧ i.length ≤ 4 ∧ (encode i).length = i.length

/-! ## Reset and the program image -/

/-- R34, R190: the state after reset. The zeros other than the registers' are decision D9; that the stream of the argument-free
reset is empty and has ended is this model's choice (assumption 5). -/
def Obligations.ResetValues : Prop :=
  (∀ i, State.reset.getReg i = 0) ∧ State.reset.pc = 0 ∧ (∀ p, State.reset.mem.read p = 0) ∧ State.reset.sp = 0 ∧
  (∀ k, State.reset.stack.read k = 0) ∧ State.reset.run = .running ∧ State.reset.cause = none ∧ State.reset.out = [] ∧
  State.reset.input = [] ∧ State.reset.inputEnded = true

/-- R52, R34: reset with an image holds it from address 0 upward, zero behind it, and drops what exceeds 32768 words; the rest
is as reset leaves it, with the input given. (The zero fill is decision D9.) -/
def Obligations.LoadedImageFillsMemory : Prop :=
  ∀ (image : List Word) (input : List Byte),
    (∀ k, k < image.length → k < 32768 → (State.load image input).mem.read k = image.getD k 0) ∧
    (∀ k, image.length ≤ k ∨ 32768 ≤ k → (State.load image input).mem.read k = 0) ∧
    (State.load image input).input = input ∧ (State.load image input).inputEnded = true ∧
    (State.load image input).regs = State.reset.regs ∧ (State.load image input).pc = 0 ∧
    (State.load image input).sp = 0 ∧ (State.load image input).stack = [] ∧ (State.load image input).run = .running ∧
    (State.load image input).cause = none ∧ (State.load image input).out = []

/-- R44, R52: image word `k` is `byte[2k] + 256 * byte[2k+1]`; an odd last byte forms no word (decision D10). -/
def Obligations.ImageFileIsLittleEndian : Prop :=
  ∀ bytes : List Byte, (imageOfBytes bytes).length = bytes.length / 2 ∧
    ∀ k, k < bytes.length / 2 →
      ((imageOfBytes bytes).getD k 0).toNat = (bytes.getD (2 * k) 0).toNat + 256 * (bytes.getD (2 * k + 1) 0).toNat

/-! ## The invariant -/

/-- Reset, with any image and input, satisfies the invariant. -/
def Obligations.ResetSatisfiesInvariant : Prop :=
  State.reset.Inv ∧ ∀ (image : List Word) (input : List Byte), (State.load image input).Inv

/-- R25, R26, R27, R28: a step from any state that satisfies the invariant leaves one that does: main memory and the stack
stay canonical within their 32768 and 1024 words, the depth stays at most 1024, and a cause is recorded exactly in HALTED. -/
def Obligations.StepKeepsInvariant : Prop :=
  ∀ s t : State, s.Inv → step s = .next t → t.Inv

/-! ## Memory, cells and the stack -/

/-- R41, R42: a checked access above 32767 raises `OutOfBounds` and memory is unchanged; otherwise a read answers the word and
a write changes that word to all 16 bits of the value and nothing else. -/
def Obligations.CheckedMemoryAccess : Prop :=
  ∀ (s : State) (a v : Word), s.mem.wf 32768 →
    (32767 < a.toNat → memRead a s = .error (.outOfBounds (.ea a)) ∧ memWrite a v s = .error (.outOfBounds (.ea a)) ∧
      ∃ t, finish s (memWrite a v s) = .next t ∧ RaisesOnly (.outOfBounds (.ea a)) s t) ∧
    (a.toNat ≤ 32767 → memRead a s = .ok (s.mem.read a.toNat) ∧
      ∃ t, memWrite a v s = .ok t ∧ WritesOnly (.mem a.toNat) v s t ∧ memRead a t = .ok v)

/-- R86, R87: a cell reads as what was written to it last, and the write changes nothing else. (That a literal's cell is its
own parameter word is decision D3, assumption 3.) -/
def Obligations.CellWriteChangesOneCell : Prop :=
  ∀ (c : Cell) (v : Word) (s : State), s.mem.wf 32768 →
    WritesOnly c v s (cellWrite c v s) ∧ cellRead c (cellWrite c v s) = v

/-- R86: a register's cell reads as the register; the cell of a literal parameter of the instruction a step is about to run
reads as that literal, a number 0 to 32767, so `value` is `CellRead` of every source parameter. -/
def Obligations.CellReadOfEveryParameter : Prop :=
  (∀ (i : RegIndex) (s : State), cellRead (.reg i) s = s.getReg i) ∧
  (∀ (i : RegIndex) (v : Word) (s : State), cellRead (.reg i) (s.setReg i v) = v) ∧
  (∀ (p : Nat) (s : State), cellRead (.mem p) s = s.mem.read p) ∧
  ∀ (s : State) (i : Instr) (q : Word) (k : Nat) (o : Operand), fetch s = .ok (i, q) → i.operands[k]? = some o →
    cellRead (resolve i.operands.length k o (s.setPc q)) (s.setPc q) = value o (s.setPc q) ∧
    ∀ v : Word, o = .lit v → v.toNat ≤ 32767 ∧
      resolve i.operands.length k o (s.setPc q) = .mem (s.pc.toNat + 1 + k) ∧ s.mem.read (s.pc.toNat + 1 + k) = v

/-- R90: `Push` on a full stack raises `StackOverflow` and changes neither `S` nor `sp`; otherwise the word, all 16 bits, is
stored at the depth and the depth grows by one. -/
def Obligations.PushStoresOrOverflows : Prop :=
  ∀ (s : State) (v : Word), s.stack.wf 1024 → s.sp ≤ 1024 →
    (s.sp = 1024 → push v s = .error .stackOverflow ∧
      ∃ t, finish s (push v s) = .next t ∧ RaisesOnly .stackOverflow s t) ∧
    (s.sp ≠ 1024 → ∃ t, push v s = .ok t ∧ PushesOnly v s.pc s t)

/-- R91: `Pop` on an empty stack raises `StackUnderflow` and nothing changes; otherwise it answers the top word and the depth
shrinks by one, every word of `S` keeping its content; a pop right after a push gives the word pushed and the old depth. -/
def Obligations.PopTakesTopOrUnderflows : Prop :=
  ∀ s : State, s.stack.wf 1024 →
    (s.sp = 0 → pop s = .error .stackUnderflow ∧
      ∃ t, finish s ((pop s).map Prod.snd) = .next t ∧ RaisesOnly .stackUnderflow s t) ∧
    (s.sp ≠ 0 → ∃ t, pop s = .ok (s.stack.read (s.sp - 1), t) ∧ t.sp = s.sp - 1 ∧ (∀ k, t.stack.read k = s.stack.read k) ∧
      t.pc = s.pc ∧ SameRegs s t ∧ SameMem s t ∧ SameRun s t ∧ SamePorts s t) ∧
    (∀ (v : Word) (t : State), push v s = .ok t → ∃ u, pop t = .ok (v, u) ∧ u.sp = s.sp)

/-! ## The step -/

/-- R84, R89, R92: when the words at `pc` decode to an instruction of `1 + n` words that all lie in memory, a step is that
instruction's rule in the state with `pc` moved past them. -/
def Obligations.StepRunsDecodedInstruction : Prop :=
  ∀ (s : State) (i : Instr) (n : Nat), s.run = .running → s.pc.toNat + 1 + n ≤ 32768 →
    decode ((List.range (1 + n)).map fun k => s.mem.read (s.pc.toNat + k)) = .ok (i, []) →
    step s = exec i (s.setPc (s.pc + BitVec.ofNat 16 (1 + n))) ∧ i.wf = true ∧ i.length = 1 + n

/-- R81: with `pc` at 32768 or more a step raises `OutOfBounds(pc)`; nothing is fetched and `pc` is unchanged. -/
def Obligations.PcOutOfBoundsEndsTheRun : Prop :=
  ∀ s : State, s.run = .running → 32768 ≤ s.pc.toNat →
    ∃ t, step s = .next t ∧ RaisesOnly (.outOfBounds (.pc s.pc)) s t

/-- R82, R66: an opcode word above 21 raises `InvalidOpcode` of that word. That `pc` is left at the word is decision D12; the
bound 21 is 90_conflicts.md C1. -/
def Obligations.InvalidOpcodeEndsTheRun : Prop :=
  ∀ s : State, s.run = .running → s.pc.toNat < 32768 → 21 < (s.mem.read s.pc.toNat).toNat →
    ∃ t, step s = .next t ∧ RaisesOnly (.invalidOpcode (s.mem.read s.pc.toNat)) s t

/-- R83: an instruction whose parameter words would reach beyond address 32767 raises `TruncatedInstruction` of its opcode
with `pc` one past the opcode word; one whose words all lie in memory is fetched. -/
def Obligations.TruncationIsByMemorySize : Prop :=
  ∀ (s : State) (m : Mnemonic), s.run = .running → s.pc.toNat < 32768 → mnemonicOf (s.mem.read s.pc.toNat) = some m →
    (32768 < s.pc.toNat + 1 + m.nparams →
      ∃ t, step s = .next t ∧ RaisesOnly (.truncatedInstruction (s.mem.read s.pc.toNat)) (s.setPc (s.pc + 1)) t) ∧
    (s.pc.toNat + 1 + m.nparams ≤ 32768 →
      ∃ i : Instr, i.mnemonic = m ∧ fetch s = .ok (i, s.pc + BitVec.ofNat 16 (1 + m.nparams)))

/-- R80, R27: in HALTED there is no step; in RUNNING there is one, and it ends either RUNNING with no cause or HALTED with
one. Two clauses are this model's choices: that no step is the answer `fault halted` (assumption 14), and that an IN which
waits, whose step R151 says does not happen yet, is answered by a step too, one that changes nothing (assumption 6). -/
def Obligations.StepOutcomes : Prop :=
  ∀ s : State,
    (s.run = .halted → step s = .fault .halted) ∧
    (s.run = .running → s.cause = none → ∃ t, step s = .next t ∧
      ((t.run = .running ∧ t.cause = none) ∨ (t.run = .halted ∧ ∃ c, t.cause = some c)))

/-- R173 with R161 to R169: from a RUNNING state a step raises exactly the first condition that holds, in the order
`OutOfBounds(pc)`, `InvalidOpcode`, `TruncatedInstruction`, execution cause, and stays RUNNING when none holds: the instruction
completes, or is an IN that waits, whose step R151 says does not happen yet and which this model answers with a step that
changes nothing (assumption 6). (MOD by zero and the end of the input are decisions D4 and D5, assumption 9.) -/
def Obligations.StepRaisesExactlyTheFirstCondition : Prop :=
  ∀ s t : State, s.run = .running → s.cause = none → step s = .next t →
    t.cause = stepCause s ∧ (t.run = .halted ↔ stepCause s ≠ none)

/-- R173: no row has more than one execution cause, and thirteen have none: what an executing instruction ends the run with is
its row's cause. (MOD by zero and the end of the input are decisions D4 and D5.) -/
def Obligations.EachRowRaisesItsOwnCause : Prop :=
  ∀ (i : Instr) (s t : State), exec i s = .next t →
    (t.run = s.run ∧ t.cause = s.cause) ∨ (t.run = .halted ∧ ∃ c, t.cause = some c ∧ rowRaises i.mnemonic c)

/-- R174: a step that ends the run changes no register, no memory word, no stack word, not the depth and no port. -/
def Obligations.FaultsArePrecise : Prop :=
  ∀ s t : State, s.run = .running → step s = .next t → t.run = .halted →
    SameRegs s t ∧ SameMem s t ∧ SameStack s t ∧ SamePorts s t

/-- R172: where `pc` is left in HALTED, cause by cause (decision D12). -/
def Obligations.PcLeftInHalted : Prop :=
  ∀ (s t : State) (c : Cause), s.run = .running → s.cause = none → step s = .next t → t.cause = some c →
    t.pc = haltedPc (mnemonicOf (s.mem.read s.pc.toNat)) s.pc c

/-- R160, R161: a safe step (one that raises no failure) exists exactly when the run is not over and no failure condition
holds, and then it answers a state with no cause or with HALT's. MOD by zero and the end of the input count as failures by
decisions D4 and D5 (assumption 9). That a step exists at an IN which waits, where R151 says none happens yet, is this model's
choice (assumption 6), and so is that no step is a fault (assumption 14). -/
def Obligations.SafeStepsRaiseNoFailure : Prop :=
  ∀ s : State, s.Inv →
    (s.SafeStep ↔ ∃ t, step s = .next t ∧ (t.cause = none ∨ t.cause = some .halt))

/-! ## What an instruction may change at all -/

/-- R30, R65, R87, R141: the only register or memory word an instruction changes is the cell of its destination parameter, or
WMEM's memory word; an instruction with neither changes none. -/
def Obligations.OnlyTheWrittenCellChanges : Prop :=
  ∀ (i : Instr) (s t : State), exec i s = .next t →
    (∀ j, t.getReg j ≠ s.getReg j → writtenCell i s = some (.reg j)) ∧
    (∀ p, t.mem.read p ≠ s.mem.read p → writtenCell i s = some (.mem p))

/-- R26, R31: the stack is reached only by PUSH, POP, CALL and RET, and its depth changes by one at most. -/
def Obligations.StackReachedOnlyByItsInstructions : Prop :=
  ∀ (i : Instr) (s t : State), exec i s = .next t →
    (i.mnemonic ∉ [Mnemonic.PUSH, .POP, .CALL, .RET] → SameStack s t) ∧
    (i.mnemonic ∈ [Mnemonic.PUSH, .CALL] → t.sp = s.sp ∨ (t.sp = s.sp + 1 ∧ ∀ k, k < s.sp → t.stack.read k = s.stack.read k)) ∧
    (i.mnemonic ∈ [Mnemonic.POP, .RET] → (t.sp = s.sp ∨ t.sp + 1 = s.sp) ∧ ∀ k, t.stack.read k = s.stack.read k)

/-- R29, R148, R150: only OUT changes the output trace, by one byte at its end; only IN consumes input, one character from
its head; no instruction ends the stream. -/
def Obligations.PortsReachedOnlyByOutAndIn : Prop :=
  ∀ (i : Instr) (s t : State), exec i s = .next t →
    (i.mnemonic ≠ .OUT → t.out = s.out) ∧ (i.mnemonic = .OUT → ∃ b, t.out = s.out ++ [b]) ∧
    (i.mnemonic ≠ .IN → t.input = s.input) ∧ (i.mnemonic = .IN → t.input = s.input ∨ ∃ ch, s.input = ch :: t.input) ∧
    t.inputEnded = s.inputEnded

/-- R93: an instruction other than JMP, JT, JF, CALL and RET leaves `pc` past its words, and so does a JT or JF whose
condition fails. (An IN that waits is not yet executed, R151: its `pc` is `InWaitsWithoutChange`'s.) -/
def Obligations.DefaultNextInstruction : Prop :=
  (∀ (i : Instr) (s t : State), i.mnemonic ∉ [Mnemonic.JMP, .JT, .JF, .CALL, .RET] → ¬ waits i s →
    exec i s = .next t → t.pc = s.pc) ∧
  (∀ (a b : Operand) (s t : State), (value a s).toNat = 0 → exec (.jt a b) s = .next t → t.pc = s.pc) ∧
  (∀ (a b : Operand) (s t : State), (value a s).toNat ≠ 0 → exec (.jf a b) s = .next t → t.pc = s.pc)

/-! ## Results: move and stack -/

/-- R100: SET copies all 16 bits of its source into its destination cell, a register or (decision D3, assumption 3) the
literal's own memory word, and changes nothing else. -/
def Obligations.SetCopiesItsSource : Prop :=
  ∀ (a b : Operand) (s : State), s.mem.wf 32768 →
    ∃ t, Sys2Proof.Machine.exec (.set a b) s = .next t ∧ WritesOnly (resolve 2 0 a s) (value b s) s t

/-- R101: PUSH puts the full value on the stack; with 1024 words there it raises `StackOverflow`. -/
def Obligations.PushPushesOrOverflows : Prop :=
  ∀ (a : Operand) (s : State), s.stack.wf 1024 → s.sp ≤ 1024 →
    (s.sp ≠ 1024 → ∃ t, Sys2Proof.Machine.exec (.push a) s = .next t ∧ PushesOnly (value a s) s.pc s t) ∧
    (s.sp = 1024 → ∃ t, Sys2Proof.Machine.exec (.push a) s = .next t ∧ RaisesOnly .stackOverflow s t)

/-- R102: POP moves the top word, unmasked, into its destination cell (a literal's own memory word by decision D3, assumption
3); on an empty stack it raises `StackUnderflow` and writes nothing. -/
def Obligations.PopPopsOrUnderflows : Prop :=
  ∀ (a : Operand) (s : State), s.mem.wf 32768 →
    (s.sp ≠ 0 → ∃ t, Sys2Proof.Machine.exec (.pop a) s = .next t ∧
      CellsAfterWrite (resolve 1 0 a s) (s.stack.read (s.sp - 1)) s t ∧ t.sp = s.sp - 1 ∧
      (∀ k, t.stack.read k = s.stack.read k) ∧ t.pc = s.pc ∧ SameRun s t ∧ SamePorts s t) ∧
    (s.sp = 0 → ∃ t, Sys2Proof.Machine.exec (.pop a) s = .next t ∧ RaisesOnly .stackUnderflow s t)

/-! ## Results: comparison -/

/-- R110, R111: EQ and GT write 1 or 0, by the full 16-bit unsigned values (decision D17), GT being strict, and change nothing
but the destination cell (a literal's own memory word by decision D3, assumption 3). -/
def Obligations.EqAndGtWriteOneOrZero : Prop :=
  ∀ (a b c : Operand) (s : State), s.mem.wf 32768 →
    (∃ t, Sys2Proof.Machine.exec (.eq a b c) s = .next t ∧
      WritesOnly (resolve 3 0 a s) (if value b s = value c s then 1 else 0) s t) ∧
    (∃ t, Sys2Proof.Machine.exec (.gt a b c) s = .next t ∧
      WritesOnly (resolve 3 0 a s) (if (value c s).toNat < (value b s).toNat then 1 else 0) s t)

/-! ## Results: control transfer -/

/-- R115, R116, R117: JMP always, JT when any of the 16 bits of its condition is set, JF when none is, loads the value of its
target; otherwise JT and JF change nothing; no jump changes anything but `pc`. -/
def Obligations.JumpsLoadTheTarget : Prop :=
  ∀ (a b : Operand) (s : State),
    (∃ t, Sys2Proof.Machine.exec (.jmp a) s = .next t ∧ JumpsOnly (value a s) s t) ∧
    (∃ t, Sys2Proof.Machine.exec (.jt a b) s = .next t ∧ JumpsOnly (if value a s ≠ 0 then value b s else s.pc) s t) ∧
    (∃ t, Sys2Proof.Machine.exec (.jf a b) s = .next t ∧ JumpsOnly (if value a s = 0 then value b s else s.pc) s t)

/-- R118: CALL pushes the address of the next sequential instruction and loads its target; with 1024 words on the stack it
raises `StackOverflow`, and the target is not loaded. -/
def Obligations.CallPushesAndJumpsOrOverflows : Prop :=
  ∀ (a : Operand) (s : State), s.stack.wf 1024 → s.sp ≤ 1024 →
    (s.sp ≠ 1024 → ∃ t, Sys2Proof.Machine.exec (.call a) s = .next t ∧ PushesOnly s.pc (value a s) s t) ∧
    (s.sp = 1024 → ∃ t, Sys2Proof.Machine.exec (.call a) s = .next t ∧ RaisesOnly .stackOverflow s t)

/-- R119: RET loads whatever word is on top, all 16 bits, and shrinks the depth; on an empty stack it raises
`StackUnderflow`. -/
def Obligations.RetPopsIntoPcOrUnderflows : Prop :=
  ∀ s : State,
    (s.sp ≠ 0 → ∃ t, Sys2Proof.Machine.exec .ret s = .next t ∧ t.pc = s.stack.read (s.sp - 1) ∧ t.sp = s.sp - 1 ∧
      (∀ k, t.stack.read k = s.stack.read k) ∧ SameRegs s t ∧ SameMem s t ∧ SameRun s t ∧ SamePorts s t) ∧
    (s.sp = 0 → ∃ t, Sys2Proof.Machine.exec .ret s = .next t ∧ RaisesOnly .stackUnderflow s t)

/-- R120: a target is any 16-bit value and no transfer checks it: the transferring instruction completes with `run` as it was,
and a target of 32768 or more ends the run at the next step with `OutOfBounds` of the target. -/
def Obligations.TargetsAreCheckedByTheNextStep : Prop :=
  ∀ (i : Instr) (s t : State) (target : Word), s.run = .running → exec i s = .next t →
    ((∃ a, i = .jmp a ∧ target = value a s) ∨ (∃ a b, i = .jt a b ∧ value a s ≠ 0 ∧ target = value b s) ∨
      (∃ a b, i = .jf a b ∧ value a s = 0 ∧ target = value b s) ∨
      (∃ a, i = .call a ∧ s.sp < 1024 ∧ target = value a s) ∨
      (i = .ret ∧ s.sp ≠ 0 ∧ target = s.stack.read (s.sp - 1))) →
    t.pc = target ∧ t.run = .running ∧
      (32768 ≤ target.toNat → ∃ u, step t = .next u ∧ RaisesOnly (.outOfBounds (.pc target)) t u)

/-- R121: a RET in any later state whose stack is what a CALL left, the words below included, returns to the instruction after
the CALL with the depth the CALL found. -/
def Obligations.ReturnGoesBehindTheCall : Prop :=
  ∀ (a : Operand) (s t u : State), s.stack.wf 1024 → s.sp < 1024 → exec (.call a) s = .next t → u.sp = t.sp →
    (∀ k, k < t.sp → u.stack.read k = t.stack.read k) →
    ∃ w, exec .ret u = .next w ∧ w.pc = s.pc ∧ w.sp = s.sp ∧ (∀ k, k < s.sp → w.stack.read k = s.stack.read k)

/-! ## Results: arithmetic and logic -/

/-- R125: the six results, on the full 16-bit unsigned operands: ADD, MULT and NOT are reduced modulo 32768, MOD (divisor not
0), AND and OR are not (decision D16, assumption 11); each is what the instruction writes to its destination cell (a literal's
own memory word by decision D3, assumption 3). Cutting the exact sum or product to 16 or 32 bits first gives the same result,
and for operands below 32768 reducing MOD, AND and OR would change nothing. -/
def Obligations.ArithmeticResultTable : Prop :=
  ∀ (a b c : Operand) (s : State),
    (∃ r : Word, exec (.add a b c) s = .next (cellWrite (resolve 3 0 a s) r s) ∧
      r.toNat = ((value b s).toNat + (value c s).toNat) % 32768 ∧
      r.toNat = ((value b s).toNat + (value c s).toNat) % 2 ^ 16 % 32768 ∧
      r.toNat = ((value b s).toNat + (value c s).toNat) % 2 ^ 32 % 32768) ∧
    (∃ r : Word, exec (.mult a b c) s = .next (cellWrite (resolve 3 0 a s) r s) ∧
      r.toNat = ((value b s).toNat * (value c s).toNat) % 32768 ∧
      r.toNat = ((value b s).toNat * (value c s).toNat) % 2 ^ 16 % 32768 ∧
      r.toNat = ((value b s).toNat * (value c s).toNat) % 2 ^ 32 % 32768) ∧
    (∃ r : Word, exec (.not a b) s = .next (cellWrite (resolve 2 0 a s) r s) ∧
      r.toNat = (65535 - (value b s).toNat) % 32768) ∧
    ((value c s).toNat ≠ 0 → ∃ r : Word, exec (.mod a b c) s = .next (cellWrite (resolve 3 0 a s) r s) ∧
      r.toNat = (value b s).toNat % (value c s).toNat ∧
      ((value b s).toNat < 32768 → (value c s).toNat < 32768 → r.toNat % 32768 = r.toNat)) ∧
    (∃ r : Word, exec (.and a b c) s = .next (cellWrite (resolve 3 0 a s) r s) ∧
      (∀ k, k < 16 → r.getLsbD k = ((value b s).getLsbD k && (value c s).getLsbD k)) ∧
      ((value b s).toNat < 32768 → (value c s).toNat < 32768 → r.toNat % 32768 = r.toNat)) ∧
    (∃ r : Word, exec (.or a b c) s = .next (cellWrite (resolve 3 0 a s) r s) ∧
      (∀ k, k < 16 → r.getLsbD k = ((value b s).getLsbD k || (value c s).getLsbD k)) ∧
      ((value b s).toNat < 32768 → (value c s).toNat < 32768 → r.toNat % 32768 = r.toNat))

/-- R126, R127: ADD and MULT write the sum and the product modulo 32768 and change nothing but the destination cell (a
literal's own memory word by decision D3, assumption 3). -/
def Obligations.AddAndMultReduce : Prop :=
  ∀ (a b c : Operand) (s : State), s.mem.wf 32768 →
    (∃ t r, Sys2Proof.Machine.exec (.add a b c) s = .next t ∧ WritesOnly (resolve 3 0 a s) r s t ∧
      r.toNat = ((value b s).toNat + (value c s).toNat) % 32768) ∧
    (∃ t r, Sys2Proof.Machine.exec (.mult a b c) s = .next t ∧ WritesOnly (resolve 3 0 a s) r s t ∧
      r.toNat = ((value b s).toNat * (value c s).toNat) % 32768)

/-- R128: MOD writes the unsigned remainder and changes nothing but the destination cell (a literal's own memory word by
decision D3, assumption 3); a zero divisor raises `UndefinedArithmetic` and nothing is written (decision D4). -/
def Obligations.ModWritesTheRemainderOrRaises : Prop :=
  ∀ (a b c : Operand) (s : State), s.mem.wf 32768 →
    (value c s ≠ 0 → ∃ t r, Sys2Proof.Machine.exec (.mod a b c) s = .next t ∧ WritesOnly (resolve 3 0 a s) r s t ∧
      r.toNat = (value b s).toNat - (value c s).toNat * ((value b s).toNat / (value c s).toNat) ∧
      r.toNat < (value c s).toNat) ∧
    (value c s = 0 → ∃ t, Sys2Proof.Machine.exec (.mod a b c) s = .next t ∧ RaisesOnly .undefinedArithmetic s t)

/-- R129, R130: AND and OR write the bitwise result of all 16 bits, unreduced, and change nothing but the destination cell (a
literal's own memory word by decision D3, assumption 3). -/
def Obligations.AndAndOrAreBitwise : Prop :=
  ∀ (a b c : Operand) (s : State), s.mem.wf 32768 →
    (∃ t r, Sys2Proof.Machine.exec (.and a b c) s = .next t ∧ WritesOnly (resolve 3 0 a s) r s t ∧
      ∀ k, r.getLsbD k = ((value b s).getLsbD k && (value c s).getLsbD k)) ∧
    (∃ t r, Sys2Proof.Machine.exec (.or a b c) s = .next t ∧ WritesOnly (resolve 3 0 a s) r s t ∧
      ∀ k, r.getLsbD k = ((value b s).getLsbD k || (value c s).getLsbD k))

/-- R131: NOT writes `32767 - (vb mod 32768)`, always a number of the machine, and changes nothing but the destination cell (a
literal's own memory word by decision D3, assumption 3). -/
def Obligations.NotComplementsFifteenBits : Prop :=
  ∀ (a b : Operand) (s : State), s.mem.wf 32768 →
    ∃ t r, Sys2Proof.Machine.exec (.not a b) s = .next t ∧ WritesOnly (resolve 2 0 a s) r s t ∧
      r.toNat = 32767 - (value b s).toNat % 32768

/-- R132: operands 0 to 32767 give results 0 to 32767; ADD, MULT and NOT do so for any operands; AND leaves the domain exactly
when both operands do, OR exactly when one does, MOD only when both do. -/
def Obligations.DomainClosure : Prop :=
  ∀ b c : Word,
    (addResult b c).toNat ≤ 32767 ∧ (multResult b c).toNat ≤ 32767 ∧ (notResult b).toNat ≤ 32767 ∧
    (32767 < (andResult b c).toNat ↔ 32767 < b.toNat ∧ 32767 < c.toNat) ∧
    (32767 < (orResult b c).toNat ↔ 32767 < b.toNat ∨ 32767 < c.toNat) ∧
    (c.toNat ≠ 0 → 32767 < (modResult b c).toNat → 32767 < b.toNat ∧ 32768 < c.toNat)

/-! ## Results: memory access -/

/-- R140: RMEM copies the memory word at its effective address, unmasked, into its destination cell (a literal's own memory
word by decision D3, assumption 3) and changes nothing else; an address above 32767 raises `OutOfBounds` of it. -/
def Obligations.RmemLoadsOrRaises : Prop :=
  ∀ (a b : Operand) (s : State), s.mem.wf 32768 →
    ((value b s).toNat ≤ 32767 → ∃ t, Sys2Proof.Machine.exec (.rmem a b) s = .next t ∧
      WritesOnly (resolve 2 0 a s) (s.mem.read (value b s).toNat) s t) ∧
    (32767 < (value b s).toNat → ∃ t, Sys2Proof.Machine.exec (.rmem a b) s = .next t ∧
      RaisesOnly (.outOfBounds (.ea (value b s))) s t)

/-- R141: WMEM stores all 16 bits of its data in the memory word at its effective address and changes nothing else; an address
above 32767 raises `OutOfBounds` of it and memory is unchanged. -/
def Obligations.WmemStoresOrRaises : Prop :=
  ∀ (a b : Operand) (s : State), s.mem.wf 32768 →
    ((value a s).toNat ≤ 32767 → ∃ t, Sys2Proof.Machine.exec (.wmem a b) s = .next t ∧
      WritesOnly (.mem (value a s).toNat) (value b s) s t) ∧
    (32767 < (value a s).toNat → ∃ t, Sys2Proof.Machine.exec (.wmem a b) s = .next t ∧
      RaisesOnly (.outOfBounds (.ea (value a s))) s t)

/-- R51: a store is seen by the very next fetch: when WMEM stores at the address of the next instruction, the next step takes
the stored word as its opcode, and raises `InvalidOpcode` of it when it exceeds 21 (R82; the bound 21 is 90_conflicts.md C1,
and that `pc` is then left at the word is decision D12, assumption 12). -/
def Obligations.StoreIsSeenByTheNextFetch : Prop :=
  ∀ (a b : Operand) (s t : State), s.mem.wf 32768 → s.run = .running → s.pc.toNat < 32768 → value a s = s.pc →
    exec (.wmem a b) s = .next t →
    t.mem.read t.pc.toNat = value b s ∧
    (∀ (i : Instr) (q : Word), fetch t = .ok (i, q) → i.mnemonic.opcodeWord = value b s) ∧
    (21 < (value b s).toNat → ∃ u, step t = .next u ∧ RaisesOnly (.invalidOpcode (value b s)) t u)

/-! ## Results: system and character ports -/

/-- R145, R146: HALT ends the run with cause `Halt` and changes nothing else; NOOP changes nothing. -/
def Obligations.HaltEndsTheRunAndNoopDoesNothing : Prop :=
  ∀ s : State,
    (∃ t, Sys2Proof.Machine.exec .halt s = .next t ∧ RaisesOnly .halt s t) ∧
    (∃ t, Sys2Proof.Machine.exec .noop s = .next t ∧ JumpsOnly s.pc s t)

/-- R147, R148: OUT appends one byte to the output, the value modulo 256 (decision D7 for a value above 255), and changes
nothing else. -/
def Obligations.OutAppendsTheLowByte : Prop :=
  ∀ (a : Operand) (s : State),
    ∃ t b, Sys2Proof.Machine.exec (.out a) s = .next t ∧ b.toNat = (value a s).toNat % 256 ∧ t.out = s.out ++ [b] ∧
      t.input = s.input ∧ t.inputEnded = s.inputEnded ∧ t.pc = s.pc ∧ SameRegs s t ∧ SameMem s t ∧ SameStack s t ∧ SameRun s t

/-- R149, R150: IN consumes exactly the next character and writes it, zero-extended (decision D6), to its destination cell (a
literal's own memory word by decision D3, assumption 3); when the stream has ended it raises `InputExhausted` and writes
nothing (decision D5). -/
def Obligations.InReadsOneCharacterOrRaises : Prop :=
  ∀ (a : Operand) (s : State), s.mem.wf 32768 →
    (∀ (ch : Byte) (rest : List Byte), s.input = ch :: rest →
      ∃ t r, Sys2Proof.Machine.exec (.inp a) s = .next t ∧ r.toNat = ch.toNat ∧ CellsAfterWrite (resolve 1 0 a s) r s t ∧
        t.input = rest ∧ t.inputEnded = s.inputEnded ∧ t.out = s.out ∧ t.pc = s.pc ∧ SameStack s t ∧ SameRun s t) ∧
    (s.input = [] → s.inputEnded = true →
      ∃ t, Sys2Proof.Machine.exec (.inp a) s = .next t ∧ RaisesOnly .inputExhausted s t)

/-- R151 (decision D8): while no character is ready and the stream has not ended, a step at an IN changes nothing at all, `pc`
included; it goes through once the host supplies a character. That waiting is a step that changes nothing is this model's
choice (assumption 6). -/
def Obligations.InWaitsWithoutChange : Prop :=
  ∀ (s : State) (i : Instr) (q : Word), s.run = .running → fetch s = .ok (i, q) → waits i s →
    step s = .next s ∧
    ∀ (ch : Byte) (rest : List Byte) (ended : Bool), ∃ t, step (s.supply (ch :: rest) ended) = .next t ∧
      t.input = rest ∧ t.pc = s.pc + 2 ∧ t.run = .running

/-! ## What no program can observe -/

/-- R148, R29: nothing flows back from the character output: bytes emitted earlier change nothing in what a step does. -/
def Obligations.EarlierOutputChangesNoStep : Prop :=
  ∀ (s : State) (o : List Byte),
    (∀ t, step s = .next t → step (withEarlierOutput o s) = .next (withEarlierOutput o t)) ∧
    (∀ f, step s = .fault f → step (withEarlierOutput o s) = .fault f)

/-- R33, R91: stack words at and above the depth are never observable: two states that differ only there step to two states
that differ only there. -/
def Obligations.WordsAboveTheDepthAreUnobservable : Prop :=
  ∀ s s' t : State, s.stack.wf 1024 → s'.stack.wf 1024 → AgreeBelowDepth s s' → step s = .next t →
    ∃ t', step s' = .next t' ∧ AgreeBelowDepth t t'
end

