-- ==== Sys2Proof/Laws/Decode.lean ====
section
/-! SUPPORT. The laws of the opcode table, of the parameter word and of the decoder. -/

namespace Sys2Proof

/-! ### The opcode table (R61, R64) -/

theorem opcode_lt (m : Mnemonic) : m.opcode < 22 := by cases m <;> decide

theorem toNat_opcodeWord (m : Mnemonic) : m.opcodeWord.toNat = m.opcode := by cases m <;> decide

theorem mnemonicOf_opcodeWord (m : Mnemonic) : mnemonicOf m.opcodeWord = some m := by cases m <;> decide

/-- A row is selected by its own opcode word only. -/
theorem mnemonicOf_eq_some {op : Word} {m : Mnemonic} : mnemonicOf op = some m ↔ op = m.opcodeWord := by
  constructor
  · intro h
    have := List.find?_some h
    rw [← BitVec.toNat_inj, toNat_opcodeWord]
    exact (beq_iff_eq.1 this).symm
  · rintro rfl; exact mnemonicOf_opcodeWord m

/-- R61, R66: a word selects no row exactly when it exceeds 21. -/
theorem mnemonicOf_eq_none {op : Word} : mnemonicOf op = none ↔ 21 < op.toNat := by
  constructor
  · intro h
    by_contra hle
    have key : ∀ n : Fin 22, (mnemonicOf (BitVec.ofNat 16 n.val)).isSome = true := by decide
    have := key ⟨op.toNat, by omega⟩
    rw [BitVec.ofNat_toNat, BitVec.setWidth_eq, h] at this
    exact Bool.noConfusion this
  · intro h
    rw [mnemonicOf, List.find?_eq_none]
    intro m _
    have := opcode_lt m
    simp; omega

theorem nparams_le (m : Mnemonic) : m.nparams ≤ 3 := by cases m <;> decide

/-! ### The parameter word (R62, R67) -/

theorem getLsbD_15_iff (w : Word) : w.getLsbD 15 = true ↔ 32768 ≤ w.toNat := by
  have h := BitVec.msb_eq_decide w
  simp only [BitVec.msb, BitVec.getMsbD] at h
  simp at h
  simp [h]

theorem decodeOperand_reg {w : Word} (h : 32768 ≤ w.toNat) :
    decodeOperand w = .reg ⟨w.toNat % 8, Nat.mod_lt _ (by decide)⟩ := by
  simp [decodeOperand, (getLsbD_15_iff w).2 h]

theorem decodeOperand_lit {w : Word} (h : w.toNat < 32768) : decodeOperand w = .lit w := by
  rw [decodeOperand, if_neg fun h' => by have := (getLsbD_15_iff w).1 h'; omega]

theorem decodeOperand_wf (w : Word) : (decodeOperand w).wf = true := by
  by_cases h : 32768 ≤ w.toNat
  · simp [decodeOperand_reg h, Operand.wf]
  · simp [decodeOperand_lit (show w.toNat < 32768 by omega), Operand.wf]; omega

theorem decodeOperand_encodeOperand {o : Operand} (h : o.wf = true) : decodeOperand (encodeOperand o) = o := by
  cases o with
  | reg i => revert i; decide
  | lit v => exact decodeOperand_lit (w := v) (by simpa [Operand.wf] using h)

/-! ### Building and decoding -/

theorem operands_length (i : Instr) : i.operands.length = i.mnemonic.nparams := by cases i <;> rfl

theorem buildInstr_operands (i : Instr) : buildInstr i.mnemonic i.operands = some i := by cases i <;> rfl

/-- What an instruction was built from. -/
theorem buildInstr_eq_some {m : Mnemonic} {os : List Operand} {i : Instr} (h : buildInstr m os = some i) :
    i.mnemonic = m ∧ i.operands = os := by
  unfold buildInstr at h
  split at h <;> cases h <;> exact ⟨rfl, rfl⟩

theorem buildInstr_of_length {m : Mnemonic} {os : List Operand} (h : os.length = m.nparams) :
    ∃ i, buildInstr m os = some i := by
  rcases os with _ | ⟨a, _ | ⟨b, _ | ⟨c, _ | ⟨d, os⟩⟩⟩⟩ <;>
    cases m <;> simp [Mnemonic.nparams] at h <;> exact ⟨_, rfl⟩

/-- Everything the decoder can answer with an instruction: the row the opcode word selects, its parameters decoded one by
one, and the words after them. -/
theorem decode_eq_ok {ws rest : List Word} {i : Instr} :
    decode ws = .ok (i, rest) ↔
      ∃ op ps, ws = op :: ps ∧ op = i.mnemonic.opcodeWord ∧ i.mnemonic.nparams ≤ ps.length ∧
        i.operands = (ps.take i.mnemonic.nparams).map decodeOperand ∧ rest = ps.drop i.mnemonic.nparams := by
  constructor
  · intro h
    rcases ws with _ | ⟨op, ps⟩
    · simp [decode] at h
    · refine ⟨op, ps, rfl, ?_⟩
      simp only [decode] at h
      split at h
      · simp at h
      · rename_i m hm
        split at h
        · simp at h
        · split at h
          · rename_i hlen j hj
            obtain ⟨rfl, hos⟩ := buildInstr_eq_some hj
            simp only [Except.ok.injEq, Prod.mk.injEq] at h
            obtain ⟨rfl, rfl⟩ := h
            exact ⟨mnemonicOf_eq_some.1 hm, by omega, hos, rfl⟩
          · simp at h
  · rintro ⟨op, ps, rfl, rfl, hlen, hos, rfl⟩
    simp only [decode, mnemonicOf_opcodeWord]
    rw [if_neg (by omega), ← hos, buildInstr_operands]

/-- The decoder rejects an opcode word above 21 by name, whatever follows (R66). -/
theorem decode_invalidOpcode {op : Word} {ps : List Word} (h : 21 < op.toNat) :
    decode (op :: ps) = .error (.invalidOpcode op) := by
  simp [decode, mnemonicOf_eq_none.2 h]

theorem decode_truncated {m : Mnemonic} {ps : List Word} (h : ps.length < m.nparams) :
    decode (m.opcodeWord :: ps) = .error (.truncated m.opcodeWord) := by
  simp [decode, mnemonicOf_opcodeWord, h]

/-- The three ways a list of words with an opcode word first decodes. -/
theorem decode_cons (op : Word) (ps : List Word) :
    (21 < op.toNat ∧ decode (op :: ps) = .error (.invalidOpcode op)) ∨
    ∃ m : Mnemonic, op = m.opcodeWord ∧
      ((ps.length < m.nparams ∧ decode (op :: ps) = .error (.truncated op)) ∨
       (m.nparams ≤ ps.length ∧ ∃ i : Instr, i.mnemonic = m ∧ decode (op :: ps) = .ok (i, ps.drop m.nparams))) := by
  by_cases h : 21 < op.toNat
  · exact .inl ⟨h, decode_invalidOpcode h⟩
  · right
    rcases hm : mnemonicOf op with _ | m
    · exact absurd (mnemonicOf_eq_none.1 hm) h
    · obtain rfl := mnemonicOf_eq_some.1 hm
      refine ⟨m, rfl, ?_⟩
      by_cases hl : ps.length < m.nparams
      · exact .inl ⟨hl, decode_truncated hl⟩
      · obtain ⟨i, hi⟩ := buildInstr_of_length (m := m) (os := (ps.take m.nparams).map decodeOperand) (by simp; omega)
        obtain ⟨rfl, hos⟩ := buildInstr_eq_some hi
        exact .inr ⟨by omega, i, rfl, decode_eq_ok.2 ⟨_, _, rfl, rfl, by omega, hos, rfl⟩⟩

theorem instr_wf_of_decode {ws rest : List Word} {i : Instr} (h : decode ws = .ok (i, rest)) : i.wf = true := by
  obtain ⟨op, ps, -, -, -, hos, -⟩ := decode_eq_ok.1 h
  simp only [Instr.wf, hos, List.all_map, List.all_eq_true]
  exact fun w _ => decodeOperand_wf w

end Sys2Proof
end

