-- ==== Sys2Proof/Laws/Memory.lean ====
section
/-! SUPPORT. The laws of a word store: read after write, and that every operation keeps the canonical form. -/

namespace Sys2Proof.Machine

namespace Memory

variable {m m' : Memory} {a b size : Nat} {v w : Word}

/-- An address below every listed one reads as 0. -/
theorem read_of_lt_all (h : ∀ c ∈ m, a < c.1) : m.read a = 0 := by
  induction m with
  | nil => rfl
  | cons c m ih =>
    have := h c (by simp)
    simp [Memory.read, show a ≠ c.1 by omega, ih fun d hd => h d (by simp [hd])]

theorem read_write_other (h : a ≠ b) : (m.write b v).read a = m.read a := by
  induction m with
  | nil => simp only [Memory.write]; split <;> simp [Memory.read, h]
  | cons c m ih =>
    obtain ⟨x, w⟩ := c
    simp only [Memory.write]
    split
    · split <;> simp [Memory.read, h]
    · split
      · rename_i _ hbx
        subst hbx
        split <;> simp [Memory.read, h]
      · simp only [Memory.read, ih]

theorem read_write_same (h : m.wf size) : (m.write b v).read b = v := by
  induction m with
  | nil => simp only [Memory.write]; split <;> simp_all [Memory.read]
  | cons c m ih =>
    obtain ⟨x, w⟩ := c
    obtain ⟨hp, hc⟩ := h
    rw [List.pairwise_cons] at hp
    simp only [Memory.write]
    split
    · split
      · rename_i hbx hv
        rw [hv]
        refine read_of_lt_all fun d hd => ?_
        rcases List.mem_cons.1 hd with rfl | hd
        · exact hbx
        · exact Nat.lt_trans hbx (hp.1 d hd)
      · simp [Memory.read]
    · split
      · rename_i _ hbx
        split
        · rename_i hv
          rw [hv, hbx]
          exact read_of_lt_all fun d hd => hp.1 d hd
        · simp [Memory.read]
      · rename_i _ hbx
        simp only [Memory.read, if_neg hbx]
        exact ih ⟨hp.2, fun d hd => hc d (by simp [hd])⟩

/-- R42 for any canonical store: the word written, every other word as before. -/
theorem read_write (h : m.wf size) : (m.write b v).read a = if a = b then v else m.read a := by
  split
  · rename_i hab; rw [hab, read_write_same h]
  · rename_i hab; exact read_write_other hab

/-- An entry after a write is the one written or an old one. -/
theorem mem_write {c : Nat × Word} (h : c ∈ m.write b v) : (c = (b, v) ∧ v ≠ 0) ∨ c ∈ m := by
  induction m with
  | nil => simp only [Memory.write] at h; split at h <;> simp_all
  | cons d m ih =>
    obtain ⟨x, w⟩ := d
    simp only [Memory.write] at h
    split at h
    · split at h
      · exact .inr h
      · rcases List.mem_cons.1 h with rfl | h
        · exact .inl ⟨rfl, ‹_›⟩
        · exact .inr h
    · split at h
      · split at h
        · exact .inr (by simp [h])
        · rcases List.mem_cons.1 h with rfl | h
          · exact .inl ⟨rfl, ‹_›⟩
          · exact .inr (by simp [h])
      · rcases List.mem_cons.1 h with rfl | h
        · exact .inr (by simp)
        · exact (ih h).imp id fun h => by simp [h]

theorem pairwise_write (h : m.Pairwise fun c d => c.1 < d.1) : (m.write b v).Pairwise fun c d => c.1 < d.1 := by
  induction m with
  | nil => simp only [Memory.write]; split <;> simp
  | cons c m ih =>
    obtain ⟨x, w⟩ := c
    have hp := List.pairwise_cons.1 h
    simp only [Memory.write]
    split
    · split
      · exact h
      · refine List.pairwise_cons.2 ⟨fun d hd => ?_, h⟩
        rcases List.mem_cons.1 hd with rfl | hd
        · assumption
        · exact Nat.lt_trans ‹b < x› (hp.1 d hd)
    · split
      · rename_i _ hbx
        split
        · exact hp.2
        · exact List.pairwise_cons.2 ⟨fun d hd => hbx ▸ hp.1 d hd, hp.2⟩
      · refine List.pairwise_cons.2 ⟨fun d hd => ?_, ih hp.2⟩
        rcases mem_write hd with ⟨rfl, _⟩ | hd
        · show x < b; omega
        · exact hp.1 d hd

/-- A write below the size keeps the canonical form. -/
theorem write_wf (h : m.wf size) (hb : b < size) : (m.write b v).wf size := by
  refine ⟨pairwise_write h.1, fun c hc => ?_⟩
  rcases mem_write hc with ⟨rfl, hv⟩ | hc
  · exact ⟨hb, hv⟩
  · exact h.2 c hc

theorem nil_wf : Memory.wf size [] := ⟨List.Pairwise.nil, by simp⟩

/-! ### The image (R52) -/

theorem ofWordsFrom_ge {ws : List Word} : ∀ {a} {c : Nat × Word}, c ∈ ofWordsFrom a ws → a ≤ c.1 ∧ c.1 < a + ws.length ∧ c.2 ≠ 0 := by
  induction ws with
  | nil => intro a c h; simp [ofWordsFrom] at h
  | cons w ws ih =>
    intro a c h
    simp only [ofWordsFrom] at h
    simp only [List.length_cons]
    split at h
    · have := ih h; exact ⟨by omega, by omega, this.2.2⟩
    · rcases List.mem_cons.1 h with rfl | h
      · exact ⟨Nat.le_refl _, by simp, ‹_›⟩
      · have := ih h; exact ⟨by omega, by omega, this.2.2⟩

theorem ofWordsFrom_pairwise {ws : List Word} : ∀ {a}, (ofWordsFrom a ws).Pairwise fun c d => c.1 < d.1 := by
  induction ws with
  | nil => intro a; simp [ofWordsFrom]
  | cons w ws ih =>
    intro a
    simp only [ofWordsFrom]
    split
    · exact ih
    · exact List.pairwise_cons.2 ⟨fun d hd => (ofWordsFrom_ge hd).1, ih⟩

theorem ofWordsFrom_wf {ws : List Word} (h : a + ws.length ≤ size) : (ofWordsFrom a ws).wf size :=
  ⟨ofWordsFrom_pairwise, fun c hc => ⟨by have := ofWordsFrom_ge hc; omega, (ofWordsFrom_ge hc).2.2⟩⟩

theorem read_ofWordsFrom {ws : List Word} : ∀ {a k}, a ≤ k → (ofWordsFrom a ws).read k = ws.getD (k - a) 0 := by
  induction ws with
  | nil => intro a k _; simp [ofWordsFrom, Memory.read]
  | cons w ws ih =>
    intro a k hk
    simp only [ofWordsFrom]
    rcases Nat.eq_or_lt_of_le hk with rfl | hlt
    · split
      · rename_i hw
        rw [read_of_lt_all fun d hd => (ofWordsFrom_ge hd).1]
        simp [hw]
      · simp [Memory.read]
    · have hsub : k - a = (k - (a + 1)) + 1 := by omega
      split
      · rw [ih hlt, hsub, List.getD_cons_succ]
      · rw [Memory.read, if_neg (by omega), ih hlt, hsub, List.getD_cons_succ]

theorem ofImage_wf {image : List Word} : (ofImage image).wf Config.memWords :=
  ofWordsFrom_wf (by rw [List.length_take]; omega)

theorem read_ofImage {image : List Word} {k : Nat} : (ofImage image).read k = (image.take Config.memWords).getD k 0 :=
  read_ofWordsFrom (Nat.zero_le k)

/-! ### `placeWords` -/

theorem placeWords_wf {ws : List Word} : ∀ {m : Memory} {a}, m.wf size → a + ws.length ≤ size → (placeWords m a ws).wf size := by
  induction ws with
  | nil => intro m a h _; exact h
  | cons w ws ih =>
    intro m a h ha
    simp only [List.length_cons] at ha
    exact ih (write_wf h (by omega)) (by omega)

end Memory

theorem reset_mem_wf : State.reset.mem.wf Config.memWords := Memory.nil_wf

end Sys2Proof.Machine
end

