-- ==== Sys2Proof/Laws/State.lean ====
section
/-! SUPPORT. One lemma per field per update of State, so that no later proof unfolds a record update. -/

namespace Sys2Proof.Machine

variable (s : State) (i j : RegIndex) (v w : Word) (c : Cause) (b : Byte) (n : Nat) (chars : List Byte) (ended : Bool)

/-! ### `setReg` -/

theorem getReg_setReg : (s.setReg i v).getReg j = if i = j then v else s.getReg j := by
  simp [State.getReg, State.setReg, Vector.getElem_set, Fin.ext_iff]

@[simp] theorem getReg_setReg_same : (s.setReg i v).getReg i = v := by simp [getReg_setReg]

@[simp] theorem setReg_pc : (s.setReg i v).pc = s.pc := rfl
@[simp] theorem setReg_mem : (s.setReg i v).mem = s.mem := rfl
@[simp] theorem setReg_stack : (s.setReg i v).stack = s.stack := rfl
@[simp] theorem setReg_sp : (s.setReg i v).sp = s.sp := rfl
@[simp] theorem setReg_run : (s.setReg i v).run = s.run := rfl
@[simp] theorem setReg_cause : (s.setReg i v).cause = s.cause := rfl
@[simp] theorem setReg_out : (s.setReg i v).out = s.out := rfl
@[simp] theorem setReg_input : (s.setReg i v).input = s.input := rfl
@[simp] theorem setReg_inputEnded : (s.setReg i v).inputEnded = s.inputEnded := rfl

/-! ### `setPc` -/

@[simp] theorem setPc_pc : (s.setPc v).pc = v := rfl
@[simp] theorem setPc_regs : (s.setPc v).regs = s.regs := rfl
@[simp] theorem setPc_getReg : (s.setPc v).getReg i = s.getReg i := rfl
@[simp] theorem setPc_mem : (s.setPc v).mem = s.mem := rfl
@[simp] theorem setPc_stack : (s.setPc v).stack = s.stack := rfl
@[simp] theorem setPc_sp : (s.setPc v).sp = s.sp := rfl
@[simp] theorem setPc_run : (s.setPc v).run = s.run := rfl
@[simp] theorem setPc_cause : (s.setPc v).cause = s.cause := rfl
@[simp] theorem setPc_out : (s.setPc v).out = s.out := rfl
@[simp] theorem setPc_input : (s.setPc v).input = s.input := rfl
@[simp] theorem setPc_inputEnded : (s.setPc v).inputEnded = s.inputEnded := rfl
@[simp] theorem setPc_setPc : (s.setPc v).setPc w = s.setPc w := rfl
@[simp] theorem setPc_self : s.setPc s.pc = s := rfl

/-! ### `raise` (R9) -/

@[simp] theorem raise_run : (raise c s).run = .halted := rfl
@[simp] theorem raise_cause : (raise c s).cause = some c := rfl
@[simp] theorem raise_regs : (raise c s).regs = s.regs := rfl
@[simp] theorem raise_getReg : (raise c s).getReg i = s.getReg i := rfl
@[simp] theorem raise_pc : (raise c s).pc = s.pc := rfl
@[simp] theorem raise_mem : (raise c s).mem = s.mem := rfl
@[simp] theorem raise_stack : (raise c s).stack = s.stack := rfl
@[simp] theorem raise_sp : (raise c s).sp = s.sp := rfl
@[simp] theorem raise_out : (raise c s).out = s.out := rfl
@[simp] theorem raise_input : (raise c s).input = s.input := rfl
@[simp] theorem raise_inputEnded : (raise c s).inputEnded = s.inputEnded := rfl

/-! ### `outByte`, `awaitInput`, `supply` -/

@[simp] theorem outByte_out : (outByte b s).out = s.out ++ [b] := rfl
@[simp] theorem outByte_regs : (outByte b s).regs = s.regs := rfl
@[simp] theorem outByte_getReg : (outByte b s).getReg i = s.getReg i := rfl
@[simp] theorem outByte_pc : (outByte b s).pc = s.pc := rfl
@[simp] theorem outByte_mem : (outByte b s).mem = s.mem := rfl
@[simp] theorem outByte_stack : (outByte b s).stack = s.stack := rfl
@[simp] theorem outByte_sp : (outByte b s).sp = s.sp := rfl
@[simp] theorem outByte_run : (outByte b s).run = s.run := rfl
@[simp] theorem outByte_cause : (outByte b s).cause = s.cause := rfl
@[simp] theorem outByte_input : (outByte b s).input = s.input := rfl
@[simp] theorem outByte_inputEnded : (outByte b s).inputEnded = s.inputEnded := rfl

theorem awaitInput_eq : awaitInput n s = s.setPc (s.pc - BitVec.ofNat 16 n) := rfl

@[simp] theorem supply_input : (s.supply chars ended).input = s.input ++ chars := rfl
@[simp] theorem supply_inputEnded : (s.supply chars ended).inputEnded = ended := rfl
@[simp] theorem supply_regs : (s.supply chars ended).regs = s.regs := rfl
@[simp] theorem supply_pc : (s.supply chars ended).pc = s.pc := rfl
@[simp] theorem supply_mem : (s.supply chars ended).mem = s.mem := rfl
@[simp] theorem supply_run : (s.supply chars ended).run = s.run := rfl

/-! ### `cellWrite` (R87): everything but the two stores of cells -/

variable (d : Cell)

@[simp] theorem cellWrite_pc : (cellWrite d v s).pc = s.pc := by cases d <;> rfl
@[simp] theorem cellWrite_stack : (cellWrite d v s).stack = s.stack := by cases d <;> rfl
@[simp] theorem cellWrite_sp : (cellWrite d v s).sp = s.sp := by cases d <;> rfl
@[simp] theorem cellWrite_run : (cellWrite d v s).run = s.run := by cases d <;> rfl
@[simp] theorem cellWrite_cause : (cellWrite d v s).cause = s.cause := by cases d <;> rfl
@[simp] theorem cellWrite_out : (cellWrite d v s).out = s.out := by cases d <;> rfl
@[simp] theorem cellWrite_input : (cellWrite d v s).input = s.input := by cases d <;> rfl
@[simp] theorem cellWrite_inputEnded : (cellWrite d v s).inputEnded = s.inputEnded := by cases d <;> rfl

end Sys2Proof.Machine
end

