-- ==== Sys2Proof/Laws/Ops.lean ====
section
/-! SUPPORT. For each shared operation, one lemma that says everything it can do; the provers cite these and do not unfold
the operations. -/

namespace Sys2Proof.Machine

variable {s t : State} {v w : Word} {c : Cause}

/-! ### `finish`, `push`, `pop`, `memRead`, `memWrite`, `inNext` -/

/-- An instruction that may raise always answers a next state: its whole effect, or the raise in the state it began in. -/
theorem finish_eq_next {r : Except Cause State} :
    finish s r = .next t ↔ (r = .ok t) ∨ ∃ c, r = .error c ∧ t = raise c s := by
  cases r <;> simp [finish, eq_comm]

theorem push_eq_ok : push v s = .ok t ↔ s.sp < 1024 ∧ t = { s with stack := s.stack.write s.sp v, sp := s.sp + 1 } := by
  unfold push
  split <;> simp_all [eq_comm]

theorem push_eq_error : push v s = .error c ↔ 1024 ≤ s.sp ∧ c = .stackOverflow := by
  unfold push
  split <;> simp_all [eq_comm]

theorem pop_eq_ok {r : Word × State} :
    pop s = .ok r ↔ s.sp ≠ 0 ∧ r = (s.stack.read (s.sp - 1), { s with sp := s.sp - 1 }) := by
  simp only [pop]
  split <;> simp_all [eq_comm]

theorem pop_eq_error : pop s = .error c ↔ s.sp = 0 ∧ c = .stackUnderflow := by
  simp only [pop]
  split <;> simp_all [eq_comm]

theorem memRead_eq_ok : memRead v s = .ok w ↔ v.toNat < 32768 ∧ w = s.mem.read v.toNat := by
  unfold memRead
  split <;> simp_all [eq_comm]

theorem memRead_eq_error : memRead v s = .error c ↔ 32768 ≤ v.toNat ∧ c = .outOfBounds (.ea v) := by
  unfold memRead
  split <;> simp_all [eq_comm]

theorem memWrite_eq_ok : memWrite v w s = .ok t ↔ v.toNat < 32768 ∧ t = { s with mem := s.mem.write v.toNat w } := by
  unfold memWrite
  split <;> simp_all [eq_comm]

theorem memWrite_eq_error : memWrite v w s = .error c ↔ 32768 ≤ v.toNat ∧ c = .outOfBounds (.ea v) := by
  unfold memWrite
  split <;> simp_all [eq_comm]

theorem inNext_char {ch : Byte} {rest : List Byte} (h : s.input = ch :: rest) :
    inNext s = .char ch { s with input := rest } := by simp [inNext, h]

theorem inNext_eof (h : s.input = []) (he : s.inputEnded = true) : inNext s = .eof := by simp [inNext, h, he]

theorem inNext_notReady (h : s.input = []) (he : s.inputEnded = false) : inNext s = .notReady := by
  simp [inNext, h, he]

/-! ### Cells (R85 to R87) -/

theorem getReg_cellWrite {d : Cell} {i : RegIndex} :
    (cellWrite d v s).getReg i = if d = .reg i then v else s.getReg i := by
  cases d with
  | reg j => simp [cellWrite, getReg_setReg]
  | mem p => simp [cellWrite, State.getReg]

theorem read_cellWrite {d : Cell} {p size : Nat} (h : s.mem.wf size) :
    (cellWrite d v s).mem.read p = if d = .mem p then v else s.mem.read p := by
  cases d with
  | reg j => simp [cellWrite]
  | mem q => simp [cellWrite, Memory.read_write h, eq_comm]

theorem cellWrite_mem_wf {d : Cell} {size : Nat} (h : s.mem.wf size) (hd : ∀ p, d = .mem p → p < size) :
    (cellWrite d v s).mem.wf size := by
  cases d with
  | reg j => exact h
  | mem p => exact Memory.write_wf h (hd p rfl)

theorem resolve_eq_mem {n k : Nat} {o : Operand} {p : Nat} (h : resolve n k o s = .mem p) : p = paramAddr n k s := by
  cases o <;> simp_all [resolve]

@[simp] theorem value_setPc {o : Operand} : value o (s.setPc v) = value o s := by cases o <;> rfl

end Sys2Proof.Machine
end

