-- ==== Sys2Proof/Laws/Fetch.lean ====
section
/-! SUPPORT. Everything the front end (R81 to R84) can answer. -/

namespace Sys2Proof.Machine

variable {s : State} {m : Memory} {p : Nat}

/-! ### The words an instruction could take -/

/-- The parameter words after the opcode word at `p`. -/
def paramWindow (m : Memory) (p : Nat) : List Word := (List.range (min 3 (32767 - p))).map fun k => m.read (p + 1 + k)

theorem length_paramWindow : (paramWindow m p).length = min 3 (32767 - p) := by simp [paramWindow]

theorem codeWindow_of_ge (h : 32768 ≤ p) : codeWindow m p = [] := by
  simp [codeWindow, show 32768 - p = 0 by omega]

theorem codeWindow_of_lt (h : p < 32768) : codeWindow m p = m.read p :: paramWindow m p := by
  have : min (1 + Config.maxParams) (Config.memWords - p) = min 3 (32767 - p) + 1 := by simp; omega
  rw [codeWindow, this, List.range_succ_eq_map, List.map_cons, List.map_map]
  simp only [paramWindow, Nat.add_zero]
  congr 1
  exact List.map_congr_left fun k _ => by simp [Nat.add_comm, Nat.add_left_comm, Nat.succ_eq_add_one]

theorem take_paramWindow {n : Nat} (h : n ≤ min 3 (32767 - p)) :
    (paramWindow m p).take n = (List.range n).map fun k => m.read (p + 1 + k) := by
  rw [paramWindow, ← List.map_take, List.take_range, Nat.min_eq_left h]

/-! ### `fetch` -/

/-- R81. -/
theorem fetch_outOfBounds (h : 32768 ≤ s.pc.toNat) : fetch s = .error (.outOfBounds (.pc s.pc), s.pc) := by
  simp [fetch, codeWindow_of_ge h, decode]

/-- R82. -/
theorem fetch_invalidOpcode (h : s.pc.toNat < 32768) (ho : 21 < (s.mem.read s.pc.toNat).toNat) :
    fetch s = .error (.invalidOpcode (s.mem.read s.pc.toNat), s.pc) := by
  simp [fetch, codeWindow_of_lt h, decode_invalidOpcode ho]

/-- R83. -/
theorem fetch_truncated {mn : Mnemonic} (h : s.pc.toNat < 32768) (ho : s.mem.read s.pc.toNat = mn.opcodeWord)
    (hn : 32768 < s.pc.toNat + 1 + mn.nparams) :
    fetch s = .error (.truncatedInstruction (s.mem.read s.pc.toNat), s.pc + 1) := by
  have : (paramWindow s.mem s.pc.toNat).length < mn.nparams := by
    rw [length_paramWindow]; omega
  simp [fetch, codeWindow_of_lt h, ho, decode_truncated this]

/-- Everything a fetched instruction satisfies (R82 to R84). -/
theorem fetch_eq_ok {i : Instr} {q : Word} :
    fetch s = .ok (i, q) ↔
      s.pc.toNat + 1 + i.mnemonic.nparams ≤ 32768 ∧ s.mem.read s.pc.toNat = i.mnemonic.opcodeWord ∧
        i.operands = (List.range i.mnemonic.nparams).map (fun k => decodeOperand (s.mem.read (s.pc.toNat + 1 + k))) ∧
        q = s.pc + BitVec.ofNat 16 i.length := by
  have hn := nparams_le i.mnemonic
  by_cases hp : s.pc.toNat < 32768
  · have hiff : ∀ rest, decode (codeWindow s.mem s.pc.toNat) = .ok (i, rest) ↔
        s.pc.toNat + 1 + i.mnemonic.nparams ≤ 32768 ∧ s.mem.read s.pc.toNat = i.mnemonic.opcodeWord ∧
        i.operands = (List.range i.mnemonic.nparams).map (fun k => decodeOperand (s.mem.read (s.pc.toNat + 1 + k))) ∧
        rest = (paramWindow s.mem s.pc.toNat).drop i.mnemonic.nparams := by
      intro rest
      rw [codeWindow_of_lt hp, decode_eq_ok]
      constructor
      · rintro ⟨op, ps, h, rfl, hl, hos, rfl⟩
        simp only [List.cons.injEq] at h
        obtain ⟨ho, rfl⟩ := h
        rw [length_paramWindow] at hl
        refine ⟨by omega, ho, ?_, rfl⟩
        rw [hos, take_paramWindow hl, List.map_map]
        rfl
      · rintro ⟨hl, ho, hos, rfl⟩
        have hl' : i.mnemonic.nparams ≤ min 3 (32767 - s.pc.toNat) := by omega
        refine ⟨_, _, rfl, ho, by rw [length_paramWindow]; exact hl', ?_, rfl⟩
        rw [hos, take_paramWindow hl', List.map_map]
        rfl
    constructor
    · intro h
      unfold fetch at h
      split at h <;> simp only [Except.ok.injEq, Prod.mk.injEq, reduceCtorEq] at h
      rename_i j rest hd
      obtain ⟨rfl, rfl⟩ := h
      obtain ⟨h1, h2, h3, -⟩ := (hiff rest).1 hd
      exact ⟨h1, h2, h3, rfl⟩
    · rintro ⟨h1, h2, h3, rfl⟩
      simp only [fetch, (hiff _).2 ⟨h1, h2, h3, rfl⟩]
  · rw [fetch_outOfBounds (by omega)]
    constructor
    · intro h; simp at h
    · rintro ⟨h, -⟩; omega

/-- The four ways a fetch ends, in the order of R173. -/
theorem fetch_cases (s : State) :
    (32768 ≤ s.pc.toNat ∧ fetch s = .error (.outOfBounds (.pc s.pc), s.pc)) ∨
    (s.pc.toNat < 32768 ∧ 21 < (s.mem.read s.pc.toNat).toNat ∧
      fetch s = .error (.invalidOpcode (s.mem.read s.pc.toNat), s.pc)) ∨
    (∃ mn : Mnemonic, s.pc.toNat < 32768 ∧ s.mem.read s.pc.toNat = mn.opcodeWord ∧ 32768 < s.pc.toNat + 1 + mn.nparams ∧
      fetch s = .error (.truncatedInstruction (s.mem.read s.pc.toNat), s.pc + 1)) ∨
    (∃ i : Instr, s.pc.toNat + 1 + i.mnemonic.nparams ≤ 32768 ∧ s.mem.read s.pc.toNat = i.mnemonic.opcodeWord ∧
      fetch s = .ok (i, s.pc + BitVec.ofNat 16 i.length)) := by
  by_cases hp : 32768 ≤ s.pc.toNat
  · exact .inl ⟨hp, fetch_outOfBounds hp⟩
  · right
    have hp : s.pc.toNat < 32768 := by omega
    by_cases ho : 21 < (s.mem.read s.pc.toNat).toNat
    · exact .inl ⟨hp, ho, fetch_invalidOpcode hp ho⟩
    · right
      rcases hm : mnemonicOf (s.mem.read s.pc.toNat) with _ | mn
      · exact absurd (mnemonicOf_eq_none.1 hm) ho
      · have ho := mnemonicOf_eq_some.1 hm
        by_cases hl : 32768 < s.pc.toNat + 1 + mn.nparams
        · exact .inl ⟨mn, hp, ho, hl, fetch_truncated hp ho hl⟩
        · right
          obtain ⟨i, hi⟩ := buildInstr_of_length (m := mn)
            (os := (List.range mn.nparams).map fun k => decodeOperand (s.mem.read (s.pc.toNat + 1 + k))) (by simp)
          obtain ⟨rfl, hos⟩ := buildInstr_eq_some hi
          exact ⟨i, by omega, ho, fetch_eq_ok.2 ⟨by omega, ho, hos, rfl⟩⟩

/-- The address after a fetched instruction does not wrap (R24). -/
theorem fetch_ok_next {i : Instr} {q : Word} (h : fetch s = .ok (i, q)) :
    q.toNat = s.pc.toNat + i.length ∧ q.toNat ≤ 32768 := by
  obtain ⟨h1, -, -, rfl⟩ := fetch_eq_ok.1 h
  have hl : i.length = 1 + i.mnemonic.nparams := by rw [Instr.length, operands_length]
  have := nparams_le i.mnemonic
  rw [BitVec.toNat_add, BitVec.toNat_ofNat, hl]
  omega

/-- In the state an instruction runs in, its parameter words stand where `paramAddr` says (R84). -/
theorem fetch_ok_paramAddr {i : Instr} {q : Word} (h : fetch s = .ok (i, q)) (k : Nat) :
    paramAddr i.operands.length k (s.setPc q) = s.pc.toNat + 1 + k := by
  have := (fetch_ok_next h).1
  simp only [paramAddr, setPc_pc, Instr.length] at *
  omega

theorem step_halted (h : s.run = .halted) : step s = .fault .halted := by simp [step, h]

theorem step_of_fetch_ok {i : Instr} {q : Word} (hr : s.run = .running) (h : fetch s = .ok (i, q)) :
    step s = exec i (s.setPc q) := by simp [step, hr, h]

theorem step_of_fetch_error {c : Cause} {q : Word} (hr : s.run = .running) (h : fetch s = .error (c, q)) :
    step s = .next (raise c (s.setPc q)) := by simp [step, hr, h]

end Sys2Proof.Machine
end

