-- ==== Sys2Proof/Laws/Exec.lean ====
section
/-! SUPPORT. Everything a meaning can do, said once: when it raises, and the few shapes of its next state otherwise. -/

namespace Sys2Proof.Machine

variable {i : Instr} {s t : State} {c : Cause}

/-- An instruction raises the cause its condition gives, in the state it runs in (R173, R174). -/
theorem exec_raises (h : execCause i s = some c) : exec i s = .next (raise c s) := by
  cases i <;> simp only [execCause, reduceCtorEq] at h <;> simp only [exec]
  case halt => cases h; rfl
  case mod a b d => split at h <;> cases h; simp_all [execMod]
  case push a => split at h <;> cases h; exact finish_eq_next.2 (.inr ⟨_, push_eq_error.2 ⟨by omega, rfl⟩, rfl⟩)
  case pop a =>
    split at h <;> cases h
    exact finish_eq_next.2 (.inr ⟨_, by rw [pop_eq_error.2 ⟨‹_›, rfl⟩]; rfl, rfl⟩)
  case call a =>
    split at h <;> cases h
    exact finish_eq_next.2 (.inr ⟨_, by rw [push_eq_error.2 ⟨by omega, rfl⟩]; rfl, rfl⟩)
  case ret =>
    split at h <;> cases h
    exact finish_eq_next.2 (.inr ⟨_, by rw [pop_eq_error.2 ⟨‹_›, rfl⟩]; rfl, rfl⟩)
  case rmem a b =>
    split at h <;> cases h
    exact finish_eq_next.2 (.inr ⟨_, by rw [memRead_eq_error.2 ⟨by omega, rfl⟩]; rfl, rfl⟩)
  case wmem a b =>
    split at h <;> cases h
    exact finish_eq_next.2 (.inr ⟨_, memWrite_eq_error.2 ⟨by omega, rfl⟩, rfl⟩)
  case inp a =>
    split at h <;> cases h
    rename_i hh
    simp [execIn, inNext_eof hh.1 hh.2]

/-! ### The next state of each instruction that can raise, when it does not -/

theorem exec_push {a : Operand} (h : s.sp < 1024) :
    exec (.push a) s = .next { s with stack := s.stack.write s.sp (value a s), sp := s.sp + 1 } :=
  finish_eq_next.2 (.inl (push_eq_ok.2 ⟨h, rfl⟩))

theorem exec_pop {a : Operand} (h : s.sp ≠ 0) :
    exec (.pop a) s = .next (cellWrite (resolve 1 0 a s) (s.stack.read (s.sp - 1)) { s with sp := s.sp - 1 }) :=
  finish_eq_next.2 (.inl (by rw [pop_eq_ok.2 ⟨h, rfl⟩]; rfl))

theorem exec_call {a : Operand} (h : s.sp < 1024) :
    exec (.call a) s = .next { s with stack := s.stack.write s.sp s.pc, sp := s.sp + 1, pc := value a s } :=
  finish_eq_next.2 (.inl (by rw [push_eq_ok.2 ⟨h, rfl⟩]; rfl))

theorem exec_ret (h : s.sp ≠ 0) :
    exec .ret s = .next { s with sp := s.sp - 1, pc := s.stack.read (s.sp - 1) } :=
  finish_eq_next.2 (.inl (by rw [pop_eq_ok.2 ⟨h, rfl⟩]; rfl))

theorem exec_mod {a b d : Operand} (h : (value d s).toNat ≠ 0) :
    exec (.mod a b d) s = .next (cellWrite (resolve 3 0 a s) (modResult (value b s) (value d s)) s) := by
  simp only [exec, execMod, if_neg h]

theorem exec_rmem {a b : Operand} (h : (value b s).toNat < 32768) :
    exec (.rmem a b) s = .next (cellWrite (resolve 2 0 a s) (s.mem.read (value b s).toNat) s) :=
  finish_eq_next.2 (.inl (by rw [memRead_eq_ok.2 ⟨h, rfl⟩]; rfl))

theorem exec_wmem {a b : Operand} (h : (value a s).toNat < 32768) :
    exec (.wmem a b) s = .next { s with mem := s.mem.write (value a s).toNat (value b s) } :=
  finish_eq_next.2 (.inl (memWrite_eq_ok.2 ⟨h, rfl⟩))

theorem exec_in {a : Operand} {ch : Byte} {rest : List Byte} (h : s.input = ch :: rest) :
    exec (.inp a) s = .next (cellWrite (resolve 1 0 a s) (ch.setWidth 16) { s with input := rest }) := by
  simp only [exec, execIn, inNext_char h]

theorem exec_in_waits {a : Operand} (h : s.input = []) (he : s.inputEnded = false) :
    exec (.inp a) s = .next (awaitInput 2 s) := by
  simp only [exec, execIn, inNext_notReady h he]

theorem exec_jt {a b : Operand} : exec (.jt a b) s = .next (if value a s = 0 then s else s.setPc (value b s)) := by
  by_cases h : value a s = 0
  · simp [exec, execJt, wordIsTrue, h]
  · have : (value a s).toNat ≠ 0 := fun hh => h (BitVec.eq_of_toNat_eq hh)
    rw [if_neg h]; simp [exec, execJt, wordIsTrue, this]

theorem exec_jf {a b : Operand} : exec (.jf a b) s = .next (if value a s = 0 then s.setPc (value b s) else s) := by
  by_cases h : value a s = 0
  · simp [exec, execJf, wordIsTrue, h]
  · have : (value a s).toNat ≠ 0 := fun hh => h (BitVec.eq_of_toNat_eq hh)
    rw [if_neg h]; simp [exec, execJf, wordIsTrue, this]

/-- The state an instruction writes its destination cell in: the state it runs in, after the one pop or the one character
taken (R92). -/
inductive Source (i : Instr) (s : State) : State → Prop where
  | self : Source i s s
  | popped (hi : i.mnemonic = .POP) (h : s.sp ≠ 0) : Source i s { s with sp := s.sp - 1 }
  | consumed (hi : i.mnemonic = .IN) (ch : Byte) (rest : List Byte) (h : s.input = ch :: rest) :
      Source i s { s with input := rest }

/-- Everything an instruction that does not raise can do. -/
inductive Effect (i : Instr) (s : State) : State → Prop where
  /-- One cell written: the destination parameter's, or WMEM's memory word. -/
  | wrote (d : Cell) (v : Word) (u : State) (hd : writtenCell i s = some d) (hu : Source i s u)
      (hw : ∀ a b, i = .wmem a b → (value a s).toNat < 32768) : Effect i s (cellWrite d v u)
  /-- Nothing (NOOP, a JT or JF whose condition fails). -/
  | nothing : Effect i s s
  /-- A jump. -/
  | jumped (v : Word) (hi : i.mnemonic ∈ [Mnemonic.JMP, .JT, .JF]) : Effect i s (s.setPc v)
  /-- An IN that waits. -/
  | waited (hi : waits i s) : Effect i s (awaitInput 2 s)
  /-- PUSH or CALL. -/
  | pushed (v q : Word) (h : s.sp < 1024) (hi : i.mnemonic = .PUSH ∧ q = s.pc ∨ i.mnemonic = .CALL) :
      Effect i s { s with stack := s.stack.write s.sp v, sp := s.sp + 1, pc := q }
  /-- RET. -/
  | returned (h : s.sp ≠ 0) (hi : i.mnemonic = .RET) : Effect i s { s with sp := s.sp - 1, pc := s.stack.read (s.sp - 1) }
  /-- OUT. -/
  | emitted (b : Byte) (hi : i.mnemonic = .OUT) : Effect i s (outByte b s)

/-- An instruction whose condition does not hold completes (R89), with one of the effects above. -/
theorem exec_completes (h : execCause i s = none) : ∃ t, exec i s = .next t ∧ Effect i s t := by
  cases i <;> simp only [execCause, reduceCtorEq] at h <;> simp only [exec]
  case set a b => exact ⟨_, rfl, .wrote _ _ _ rfl .self (by simp)⟩
  case eq a b d => exact ⟨_, rfl, .wrote _ _ _ rfl .self (by simp)⟩
  case gt a b d => exact ⟨_, rfl, .wrote _ _ _ rfl .self (by simp)⟩
  case add a b d => exact ⟨_, rfl, .wrote _ _ _ rfl .self (by simp)⟩
  case mult a b d => exact ⟨_, rfl, .wrote _ _ _ rfl .self (by simp)⟩
  case and a b d => exact ⟨_, rfl, .wrote _ _ _ rfl .self (by simp)⟩
  case or a b d => exact ⟨_, rfl, .wrote _ _ _ rfl .self (by simp)⟩
  case not a b => exact ⟨_, rfl, .wrote _ _ _ rfl .self (by simp)⟩
  case noop => exact ⟨_, rfl, .nothing⟩
  case out a => exact ⟨_, rfl, .emitted _ rfl⟩
  case jmp a => exact ⟨_, rfl, .jumped _ (by simp [Instr.mnemonic])⟩
  case jt a b =>
    refine ⟨_, rfl, ?_⟩
    split
    · exact .jumped _ (by simp [Instr.mnemonic])
    · exact .nothing
  case jf a b =>
    refine ⟨_, rfl, ?_⟩
    split
    · exact .nothing
    · exact .jumped _ (by simp [Instr.mnemonic])
  case mod a b d =>
    split at h <;> cases h
    exact ⟨_, exec_mod ‹_›, .wrote _ _ _ rfl .self (by simp)⟩
  case push a =>
    split at h <;> cases h
    exact ⟨_, exec_push ‹_›, .pushed _ s.pc ‹_› (.inl ⟨rfl, rfl⟩)⟩
  case call a =>
    split at h <;> cases h
    exact ⟨_, exec_call ‹_›, .pushed s.pc (value a s) ‹_› (.inr rfl)⟩
  case pop a =>
    split at h <;> cases h
    exact ⟨_, exec_pop ‹_›, .wrote _ _ _ rfl (.popped rfl ‹_›) (by simp)⟩
  case ret =>
    split at h <;> cases h
    exact ⟨_, exec_ret ‹_›, .returned ‹_› rfl⟩
  case rmem a b =>
    split at h <;> cases h
    exact ⟨_, exec_rmem (by omega), .wrote _ _ _ rfl .self (by simp)⟩
  case wmem a b =>
    split at h <;> cases h
    refine ⟨_, exec_wmem (by omega), .wrote (.mem (value a s).toNat) (value b s) s rfl .self ?_⟩
    rintro a' b' ⟨⟩; omega
  case inp a =>
    split at h <;> cases h
    rename_i hh
    rcases hin : s.input with _ | ⟨ch, rest⟩
    · have he : s.inputEnded = false := by
        rcases hb : s.inputEnded with _ | _
        · rfl
        · exact absurd ⟨hin, hb⟩ hh
      exact ⟨_, exec_in_waits hin he, .waited ⟨rfl, hin, he⟩⟩
    · exact ⟨_, exec_in hin, .wrote _ _ _ rfl (.consumed rfl ch rest hin) (by simp)⟩

/-- Everything `exec` can answer. -/
theorem exec_cases (h : exec i s = .next t) :
    (∃ c, execCause i s = some c ∧ t = raise c s) ∨ (execCause i s = none ∧ Effect i s t) := by
  rcases hc : execCause i s with _ | c
  · obtain ⟨u, hu, he⟩ := exec_completes hc
    rw [h] at hu
    cases hu
    exact .inr ⟨rfl, he⟩
  · have := exec_raises hc
    rw [h] at this
    cases this
    exact .inl ⟨c, rfl, rfl⟩

/-- No meaning faults or refuses. -/
theorem exec_next (i : Instr) (s : State) : ∃ t, exec i s = .next t := by
  rcases hc : execCause i s with _ | c
  · exact (exec_completes hc).imp fun _ h => h.1
  · exact ⟨_, exec_raises hc⟩

/-- An instruction that does not raise leaves the run state and the cause. -/
theorem Effect.run_cause (h : Effect i s t) : t.run = s.run ∧ t.cause = s.cause := by
  cases h with
  | wrote d v u hd hu hw => cases hu <;> simp
  | _ => exact ⟨rfl, rfl⟩

/-- `stepCause` read off the fetch. -/
theorem stepCause_eq : stepCause s = match fetch s with
    | .error (c, _) => some c
    | .ok (i, q) => execCause i (s.setPc q) := by
  rcases fetch_cases s with ⟨h1, h2⟩ | ⟨h1, h2, h3⟩ | ⟨mn, h1, h2, h3, h4⟩ | ⟨j, h1, h2, h3⟩
  · simp [stepCause, h1, h2]
  · simp [stepCause, h3, show ¬ 32768 ≤ s.pc.toNat by omega, mnemonicOf_eq_none.2 h2]
  · simp only [stepCause, h4, if_neg (show ¬ 32768 ≤ s.pc.toNat by omega), mnemonicOf_eq_some.2 h2, if_pos h3]
  · simp only [stepCause, h3, if_neg (show ¬ 32768 ≤ s.pc.toNat by omega), mnemonicOf_eq_some.2 h2,
      if_neg (show ¬ 32768 < s.pc.toNat + 1 + j.mnemonic.nparams by omega)]

/-- The address of a literal destination lies inside the instruction just fetched. -/
theorem writtenCell_mem_lt {q : Word} {p : Nat} (h : fetch s = .ok (i, q)) (hc : execCause i (s.setPc q) = none)
    (hd : writtenCell i (s.setPc q) = some (.mem p)) : p < 32768 := by
  have hp := (fetch_ok_next h).2
  have ha := fetch_ok_paramAddr h 0
  have key : ∀ (n : Nat) (a : Operand), i.operands.length = n → 1 ≤ n → resolve n 0 a (s.setPc q) = .mem p → p < 32768 := by
    intro n a hn h1 hr
    rw [resolve_eq_mem hr, ← hn, ha]
    have := (fetch_ok_next h).1
    rw [Instr.length, hn] at this
    omega
  cases i <;> simp only [writtenCell, Option.some.injEq, reduceCtorEq] at hd
  case wmem a b =>
    simp only [execCause] at hc
    split at hc <;> cases hc
    simp only [Cell.mem.injEq] at hd
    omega
  all_goals exact key _ _ rfl (by simp [Instr.operands]) hd

end Sys2Proof.Machine
end

