-- ==== Sys2Proof/Laws/PerInstr.lean ====
section
/-! SUPPORT. The statements made per instruction, one lemma per constructor of Instr. -/

namespace Sys2Proof.Laws

namespace EncodeShape

/-- R60, R63, R64, R72: the words of an instruction are its row's opcode word and one word per parameter, as many as the row
gives, and the row with those parameters builds the instruction again. -/
def Statement (i : Instr) : Prop :=
  encode i = i.mnemonic.opcodeWord :: i.operands.map encodeOperand ∧ (encode i).length = i.length ∧
    i.operands.length = i.mnemonic.nparams ∧ buildInstr i.mnemonic i.operands = some i

theorem halt : Statement .halt := ⟨rfl, rfl, rfl, rfl⟩
theorem set (a b : Operand) : Statement (.set a b) := ⟨rfl, rfl, rfl, rfl⟩
theorem push (a : Operand) : Statement (.push a) := ⟨rfl, rfl, rfl, rfl⟩
theorem pop (a : Operand) : Statement (.pop a) := ⟨rfl, rfl, rfl, rfl⟩
theorem eq (a b c : Operand) : Statement (.eq a b c) := ⟨rfl, rfl, rfl, rfl⟩
theorem gt (a b c : Operand) : Statement (.gt a b c) := ⟨rfl, rfl, rfl, rfl⟩
theorem jmp (a : Operand) : Statement (.jmp a) := ⟨rfl, rfl, rfl, rfl⟩
theorem jt (a b : Operand) : Statement (.jt a b) := ⟨rfl, rfl, rfl, rfl⟩
theorem jf (a b : Operand) : Statement (.jf a b) := ⟨rfl, rfl, rfl, rfl⟩
theorem add (a b c : Operand) : Statement (.add a b c) := ⟨rfl, rfl, rfl, rfl⟩
theorem mult (a b c : Operand) : Statement (.mult a b c) := ⟨rfl, rfl, rfl, rfl⟩
theorem mod (a b c : Operand) : Statement (.mod a b c) := ⟨rfl, rfl, rfl, rfl⟩
theorem and (a b c : Operand) : Statement (.and a b c) := ⟨rfl, rfl, rfl, rfl⟩
theorem or (a b c : Operand) : Statement (.or a b c) := ⟨rfl, rfl, rfl, rfl⟩
theorem not (a b : Operand) : Statement (.not a b) := ⟨rfl, rfl, rfl, rfl⟩
theorem rmem (a b : Operand) : Statement (.rmem a b) := ⟨rfl, rfl, rfl, rfl⟩
theorem wmem (a b : Operand) : Statement (.wmem a b) := ⟨rfl, rfl, rfl, rfl⟩
theorem call (a : Operand) : Statement (.call a) := ⟨rfl, rfl, rfl, rfl⟩
theorem ret : Statement .ret := ⟨rfl, rfl, rfl, rfl⟩
theorem out (a : Operand) : Statement (.out a) := ⟨rfl, rfl, rfl, rfl⟩
theorem inp (a : Operand) : Statement (.inp a) := ⟨rfl, rfl, rfl, rfl⟩
theorem noop : Statement .noop := ⟨rfl, rfl, rfl, rfl⟩

end EncodeShape

end Sys2Proof.Laws
end

