-- ==== Sys2Proof/Laws/Results.lean ====
section
/-! SUPPORT. The results of the arithmetic, logic and comparison operations as numbers and as bits (R110, R111, R125). -/

namespace Sys2Proof.Machine

variable (b c : Word)

theorem toNat_ofNat_of_lt {n : Nat} (h : n < 65536) : (BitVec.ofNat 16 n).toNat = n := by simp; omega

theorem toNat_addResult : (addResult b c).toNat = (b.toNat + c.toNat) % 32768 := by
  rw [addResult, Config.modulus_eq]; exact toNat_ofNat_of_lt (by omega)

theorem toNat_multResult : (multResult b c).toNat = (b.toNat * c.toNat) % 32768 := by
  rw [multResult, Config.modulus_eq]; exact toNat_ofNat_of_lt (by omega)

theorem toNat_modResult : (modResult b c).toNat = b.toNat % c.toNat := by
  rw [modResult]; exact toNat_ofNat_of_lt (Nat.lt_of_le_of_lt (Nat.mod_le _ _) b.isLt)

theorem toNat_notResult : (notResult b).toNat = (65535 - b.toNat) % 32768 := by
  rw [notResult, Config.modulus_eq, BitVec.toNat_not]; exact toNat_ofNat_of_lt (by omega)

theorem getLsbD_andResult (k : Nat) : (andResult b c).getLsbD k = (b.getLsbD k && c.getLsbD k) := by simp [andResult]

theorem getLsbD_orResult (k : Nat) : (orResult b c).getLsbD k = (b.getLsbD k || c.getLsbD k) := by simp [orResult]

theorem eqResult_eq : eqResult b c = if b = c then 1 else 0 := by
  simp [eqResult, boolWord, BitVec.toNat_inj]

theorem gtResult_eq : gtResult b c = if c.toNat < b.toNat then 1 else 0 := by
  simp [gtResult, boolWord]

end Sys2Proof.Machine
end

