-- ==== Sys2Proof/Tests/Slice0.lean ====
section
/-! SUPPORT. The model's own tests. Expected results are the spec's: the words of the instruction rules' examples and the
vectors of 95_test_vectors.md (named in the comments), which its writer evaluated from the rules. After them, a witness for the
hypotheses of each statement, at the boundary of each clause. -/

namespace Sys2Proof.Tests

open Sys2Proof.Machine Sys2Proof.Claims

/-- Whether a step answers a next state with a property. -/
def after (o : Host.Outcome State Fault Refusal) (f : State → Bool) : Bool :=
  match o with
  | .next t => f t
  | .fault _ => false
  | .refused _ => false

/-- Reset with words stored from an address, `pc` there. -/
def progAt (p : Nat) (ws : List Word) : State := { State.reset with pc := BitVec.ofNat 16 p, mem := placeWords [] p ws }

/-- A state that the step ended the run in with a given cause and `pc`. -/
def ended (c : Cause) (pc : Word) (t : State) : Bool := t.run == .halted && t.cause == some c && t.pc == pc

/-- A state that still runs, with a given `pc`. -/
def runs (pc : Word) (t : State) : Bool := t.run == .running && t.cause == none && t.pc == pc

/-! ### WellFormed: an ill-formed term for the check, in each parameter position -/

theorem smoke_literal_first : (Instr.push (.lit 32768)).wf = false := by decide
theorem smoke_literal_second : (Instr.set (.reg 0) (.lit 65535)).wf = false := by decide
theorem smoke_literal_third : (Instr.add (.reg 0) (.lit 1) (.lit 40000)).wf = false := by decide
theorem smoke_literal_largest : (Instr.add (.lit 32767) (.reg 7) (.lit 0)).wf = true := by decide

/-! ### Decoding: the words of each rule's example (R100 to R149) -/

theorem test_decode_halt : decode [0] = .ok (.halt, []) := rfl
theorem test_decode_set : decode [1, 0x8000, 4] = .ok (.set (.reg 0) (.lit 4), []) := rfl
theorem test_decode_push : decode [2, 17] = .ok (.push (.lit 17), []) := rfl
theorem test_decode_pop : decode [3, 0x8000] = .ok (.pop (.reg 0), []) := rfl
theorem test_decode_eq : decode [4, 0x8000, 0x8001, 5] = .ok (.eq (.reg 0) (.reg 1) (.lit 5), []) := rfl
theorem test_decode_gt : decode [5, 0x8000, 7, 3] = .ok (.gt (.reg 0) (.lit 7) (.lit 3), []) := rfl
theorem test_decode_jmp : decode [6, 100] = .ok (.jmp (.lit 100), []) := rfl
theorem test_decode_jt : decode [7, 0x8000, 50] = .ok (.jt (.reg 0) (.lit 50), []) := rfl
theorem test_decode_jf : decode [8, 0x8000, 50] = .ok (.jf (.reg 0) (.lit 50), []) := rfl
theorem test_decode_add : decode [9, 0x8001, 0x8001, 0x8000] = .ok (.add (.reg 1) (.reg 1) (.reg 0), []) := rfl
theorem test_decode_mult : decode [10, 0x8000, 300, 200] = .ok (.mult (.reg 0) (.lit 300) (.lit 200), []) := rfl
theorem test_decode_mod : decode [11, 0x8000, 17, 5] = .ok (.mod (.reg 0) (.lit 17) (.lit 5), []) := rfl
theorem test_decode_and : decode [12, 0x8000, 12, 10] = .ok (.and (.reg 0) (.lit 12) (.lit 10), []) := rfl
theorem test_decode_or : decode [13, 0x8000, 12, 10] = .ok (.or (.reg 0) (.lit 12) (.lit 10), []) := rfl
theorem test_decode_not : decode [14, 0x8000, 0x5555] = .ok (.not (.reg 0) (.lit 0x5555), []) := rfl
theorem test_decode_rmem : decode [15, 0x8000, 100] = .ok (.rmem (.reg 0) (.lit 100), []) := rfl
theorem test_decode_wmem : decode [16, 100, 0x8000] = .ok (.wmem (.lit 100) (.reg 0), []) := rfl
theorem test_decode_call : decode [17, 200] = .ok (.call (.lit 200), []) := rfl
theorem test_decode_ret : decode [18] = .ok (.ret, []) := rfl
theorem test_decode_out : decode [19, 65] = .ok (.out (.lit 65), []) := rfl
theorem test_decode_in : decode [20, 0x8000] = .ok (.inp (.reg 0), []) := rfl
theorem test_decode_noop : decode [21] = .ok (.noop, []) := rfl
/-- R67: 0x8008 names register 0, 0xFFFF register 7, 0xABCD register 5. -/
theorem test_decode_aliases : [0x8008, 0xFFFF, 0xABCD].map decodeOperand = [.reg 0, .reg 7, .reg 5] := rfl
/-- R61, R66: 22 and 0x8000 are no opcodes; R83: a missing parameter word. -/
theorem test_decode_rejects : decode [22] = .error (.invalidOpcode 22) ∧ decode [0x8000] = .error (.invalidOpcode 0x8000) ∧
    decode [11, 0x8000, 5] = .error (.truncated 11) ∧ decode [] = .error .noOpcodeWord := ⟨rfl, rfl, rfl, rfl⟩
/-- R72 on P4's first instruction and a canonical register reference. -/
theorem test_encode : encode (.wmem (.lit 5) (.lit 65)) = [16, 5, 65] ∧
    encode (.add (.reg 1) (.reg 1) (.reg 0)) = [9, 32769, 32769, 32768] := ⟨rfl, rfl⟩
/-- The table gives a row 16 bits; the parameter words above them are 0. With all bits given they are read as laid out. -/
theorem test_decodeTableWord : decodeTableWord 16 14 = some (.not (.lit 0) (.lit 0)) ∧ decodeTableWord 16 22 = none ∧
    decodeTableWord 48 (14 + 65536 * 0x8003 + 65536 * 65536 * 7) = some (.not (.reg 3) (.lit 7)) := ⟨rfl, rfl, rfl⟩

/-! ### One step of each instruction -/

/-- F17: an empty image halts at once. -/
theorem test_reset_halts : after (step State.reset) (ended .halt 1) = true := by decide
/-- S1. -/
theorem test_halt : after (step (progAt 7 [0])) (ended .halt 8) = true := by decide
/-- S2. -/
theorem test_noop : after (step (progAt 4 [21])) (fun t => t == { progAt 4 [21] with pc := 5 }) = true := by decide
/-- F16: non-canonical references. -/
theorem test_set : after (step ((progAt 0 [1, 65535, 32777]).setReg 1 9)) (fun t => runs 3 t && t.getReg 7 == 9) = true := by decide
/-- M3: a literal destination. -/
theorem test_set_literal : after (step (progAt 0 [1, 5, 7]))
    (fun t => runs 3 t && t.mem == [(0, 1), (1, 7), (2, 7)]) = true := by decide
/-- M5: the 1024th push. -/
theorem test_push : after (step ({ progAt 0 [2, 0x8000] with sp := 1023 }.setReg 0 65535))
    (fun t => runs 2 t && t.sp == 1024 && t.stack == [(1023, 65535)]) = true := by decide
/-- M6. -/
theorem test_push_overflow : after (step { progAt 0 [2, 17] with sp := 1024 })
    (fun t => ended .stackOverflow 2 t && t.sp == 1024 && t.stack == []) = true := by decide
/-- M9. -/
theorem test_pop : after (step { progAt 0 [3, 0x8001] with sp := 2, stack := [(0, 5), (1, 50000)] })
    (fun t => runs 2 t && t.getReg 1 == 50000 && t.sp == 1) = true := by decide
/-- M10: a literal destination becomes a register reference. -/
theorem test_pop_literal : after (step { progAt 0 [3, 9] with sp := 1, stack := [(0, 0x8003)] })
    (fun t => runs 2 t && t.mem == [(0, 3), (1, 32771)] && t.sp == 0) = true := by decide
/-- Q3: 16 bits are compared. -/
theorem test_eq : after (step (((progAt 0 [4, 0x8000, 0x8001, 5]).setReg 0 9).setReg 1 32773))
    (fun t => runs 4 t && t.getReg 0 == 0) = true := by decide
/-- Q8: unsigned. -/
theorem test_gt : after (step ((progAt 0 [5, 0x8000, 0x8001, 32767]).setReg 1 32768))
    (fun t => runs 4 t && t.getReg 0 == 1) = true := by decide
/-- Q7: strict. -/
theorem test_gt_equal : after (step ((progAt 0 [5, 0x8000, 5, 5]).setReg 0 9)) (fun t => runs 4 t && t.getReg 0 == 0) = true := by
  decide
/-- J2. -/
theorem test_jmp : after (step ((progAt 0 [6, 0x8002]).setReg 2 40000)) (runs 40000) = true := by decide
/-- J6 and J5. -/
theorem test_jt : after (step ((progAt 0 [7, 0x8000, 50]).setReg 0 32768)) (runs 50) = true := by decide
theorem test_jt_zero : after (step (progAt 20 [7, 0x8000, 50])) (runs 23) = true := by decide
/-- J9 and J7. -/
theorem test_jf : after (step ((progAt 0 [8, 0x8000, 50]).setReg 0 32768)) (runs 3) = true := by decide
theorem test_jf_zero : after (step (progAt 20 [8, 0x8000, 50])) (runs 50) = true := by decide
/-- J12: the return address is out of range. -/
theorem test_call : after (step (progAt 32766 [17, 5])) (fun t => runs 5 t && t.sp == 1 && t.stack == [(0, 32768)]) = true := by
  decide
/-- J16 and J15. -/
theorem test_ret : after (step { progAt 0 [18] with sp := 1, stack := [(0, 40000)] }) (fun t => runs 40000 t && t.sp == 0) = true := by
  decide
theorem test_ret_underflow : after (step (progAt 3 [18])) (ended .stackUnderflow 4) = true := by decide
/-- A4. -/
theorem test_add : after (step ((progAt 0 [9, 0x8000, 0x8001, 0x8001]).setReg 1 65535))
    (fun t => runs 4 t && t.getReg 0 == 32766) = true := by decide
/-- A11 and A14. -/
theorem test_mult : after (step (progAt 0 [10, 0x8000, 181, 182])) (fun t => runs 4 t && t.getReg 0 == 174) = true := by decide
theorem test_mult_large : after (step ((progAt 0 [10, 0x8000, 0x8001, 0x8001]).setReg 1 65535))
    (fun t => runs 4 t && t.getReg 0 == 1) = true := by decide
/-- A23 and A16. -/
theorem test_mod : after (step (((progAt 0 [11, 0x8000, 0x8001, 0x8002]).setReg 1 65535).setReg 2 40000))
    (fun t => runs 4 t && t.getReg 0 == 25535) = true := by decide
theorem test_mod_zero : after (step ((progAt 0 [11, 0x8000, 5, 0]).setReg 0 9))
    (fun t => ended .undefinedArithmetic 4 t && t.getReg 0 == 9) = true := by decide
/-- A26. -/
theorem test_and : after (step (((progAt 0 [12, 0x8000, 0x8001, 0x8002]).setReg 1 65535).setReg 2 32769))
    (fun t => runs 4 t && t.getReg 0 == 32769) = true := by decide
/-- A29. -/
theorem test_or : after (step ((progAt 0 [13, 0x8000, 0x8001, 1]).setReg 1 32768))
    (fun t => runs 4 t && t.getReg 0 == 32769) = true := by decide
/-- A37. -/
theorem test_not : after (step ((progAt 0 [14, 0x8000, 0x8001]).setReg 1 40000)) (fun t => runs 3 t && t.getReg 0 == 25535) = true := by
  decide
/-- L4 and L2. -/
theorem test_rmem : after (step (progAt 4 [15, 0x8000, 4])) (fun t => runs 7 t && t.getReg 0 == 15) = true := by decide
theorem test_rmem_outOfBounds : after (step (((progAt 0 [15, 0x8000, 0x8001]).setReg 0 9).setReg 1 32768))
    (fun t => ended (.outOfBounds (.ea 32768)) 3 t && t.getReg 0 == 9) = true := by decide
/-- L10 and L8. -/
theorem test_wmem : after (step (((progAt 0 [16, 0x8000, 0x8001]).setReg 0 500).setReg 1 65535))
    (fun t => runs 3 t && t.mem.read 500 == 65535) = true := by decide
theorem test_wmem_outOfBounds : after (step ((progAt 0 [16, 0x8001, 5]).setReg 1 65535))
    (ended (.outOfBounds (.ea 65535)) 3) = true := by decide
/-- S5. -/
theorem test_out : after (step { progAt 0 [19, 321] with out := [7] }) (fun t => runs 2 t && t.out == [7, 65]) = true := by decide
/-- S8 and S9. -/
theorem test_in : after (step { progAt 0 [20, 0x8000] with input := [104, 105, 10] })
    (fun t => runs 2 t && t.getReg 0 == 104 && t.input == [105, 10]) = true := by decide
theorem test_in_ended : after (step ((progAt 0 [20, 0x8000]).setReg 0 9))
    (fun t => ended .inputExhausted 2 t && t.getReg 0 == 9) = true := by decide

/-! ### The front end (F1, F6, F8, F10, F11, F12) and HALTED (R80) -/

theorem test_last_word : after (step (progAt 32767 [21])) (runs 32768) = true := by decide
theorem test_truncated : after (step (progAt 32765 [9])) (ended (.truncatedInstruction 9) 32766) = true := by decide
theorem test_tag_in_opcode : after (step (progAt 0 [0x8000])) (ended (.invalidOpcode 0x8000) 0) = true := by decide
theorem test_invalid_before_truncated : after (step (progAt 32767 [22])) (ended (.invalidOpcode 22) 32767) = true := by decide
theorem test_truncated_before_mod : after (step (progAt 32765 [11, 0x8000, 5])) (ended (.truncatedInstruction 11) 32766) = true := by
  decide
theorem test_pc_outOfBounds : after (step (progAt 32768 [])) (ended (.outOfBounds (.pc 32768)) 32768) = true := by decide
theorem test_halted_has_no_step : step (raise .halt State.reset) = .fault .halted := rfl
/-- R52, R44: an image of five bytes; the fifth forms no word. -/
theorem test_load : (State.load (imageOfBytes [21, 0, 0, 1, 9]) [65]).mem = [(0, 21), (1, 256)] := by decide
/-- The host's placement: MOD by a literal 0 divisor, from reset. -/
theorem test_withFetchWord : after (step (State.reset.withFetchWord 16 11)) (ended .undefinedArithmetic 4) = true := by decide

/-- R171. -/
theorem test_cause_codes : ([.halt, .outOfBounds (.pc 0), .invalidOpcode 22, .truncatedInstruction 1, .stackOverflow, .stackUnderflow,
    .undefinedArithmetic, .inputExhausted] : List Cause).map Cause.code = [0, 1, 2, 3, 4, 5, 6, 7] := rfl

/-! ### Witnesses of the statements' hypotheses -/

theorem witness_StepKeepsInvariant : (progAt 0 [2, 17]).Inv ∧ ∃ t, step (progAt 0 [2, 17]) = .next t := ⟨by decide, _, rfl⟩
theorem witness_DecodeOfEncodeIsTheInstruction : (Instr.add (.lit 32767) (.reg 7) (.lit 0)).wf = true := by decide
theorem witness_ParameterWordForms : 32768 ≤ (32768 : Word).toNat ∧ 32768 ≤ (65535 : Word).toNat ∧ (32767 : Word).toNat < 32768 := by
  decide
theorem witness_OpcodeWordSelectsRowAndLength : 21 < (22 : Word).toNat ∧ (21 : Word).toNat ≤ 21 ∧
    Mnemonic.ADD.opcode = (9 : Word).toNat ∧ [(0 : Word), 0].length < Mnemonic.ADD.nparams ∧
    Mnemonic.ADD.nparams ≤ [(0 : Word), 0, 0].length := by decide
theorem witness_DecodedInstructionsAreWellFormed : decode [1, 0x8000, 4, 9] = .ok (.set (.reg 0) (.lit 4), [9]) := rfl
/-- An image one word longer than memory: index 32767 falls under the first clause and 32768 under the second; so does index 0
of an empty image. -/
theorem witness_LoadedImageFillsMemory : (∃ image : List Word, (32767 < image.length ∧ 32767 < 32768) ∧
    (image.length ≤ 32768 ∨ 32768 ≤ 32768)) ∧ (([] : List Word).length ≤ 0 ∨ 32768 ≤ 0) :=
  ⟨⟨List.replicate 32769 1, by rw [List.length_replicate]; decide⟩, by decide⟩
theorem witness_ImageFileIsLittleEndian : 0 < ([1, 2, 3] : List Byte).length / 2 := by decide
theorem witness_CheckedMemoryAccess : State.reset.mem.wf 32768 ∧ 32767 < (32768 : Word).toNat ∧ (32767 : Word).toNat ≤ 32767 := by
  decide
theorem witness_CellWriteChangesOneCell : (progAt 0 [1, 5, 7]).mem.wf 32768 := by decide
theorem witness_CellReadOfEveryParameter : fetch (progAt 32765 [1, 0x8000, 9]) = .ok (.set (.reg 0) (.lit 9), 32768) ∧
    (Instr.set (.reg 0) (.lit 9)).operands[0]? = some (.reg 0) ∧
    (Instr.set (.reg 0) (.lit 9)).operands[1]? = some (.lit 9) := ⟨rfl, rfl, rfl⟩
theorem witness_PushStoresOrOverflows : { State.reset with sp := 1024 }.stack.wf 1024 ∧ { State.reset with sp := 1024 }.sp = 1024 ∧
    { State.reset with sp := 1023 }.sp ≤ 1024 ∧ { State.reset with sp := 1023 }.sp ≠ 1024 := by decide
theorem witness_PopTakesTopOrUnderflows : State.reset.stack.wf 1024 ∧ State.reset.sp = 0 ∧ { State.reset with sp := 1 }.sp ≠ 0 ∧
    ∃ t, push 7 State.reset = .ok t := ⟨by decide, rfl, by decide, _, rfl⟩
/-- F4, an instruction that ends at the last word of memory. -/
theorem witness_StepRunsDecodedInstruction : (progAt 32765 [1, 0x8000, 9]).run = .running ∧
    (progAt 32765 [1, 0x8000, 9]).pc.toNat + 1 + 2 ≤ 32768 ∧
    decode ((List.range (1 + 2)).map fun k => (progAt 32765 [1, 0x8000, 9]).mem.read ((progAt 32765 [1, 0x8000, 9]).pc.toNat + k)) =
      .ok (.set (.reg 0) (.lit 9), []) := ⟨rfl, by decide, rfl⟩
theorem witness_PcOutOfBoundsEndsTheRun : (progAt 32768 []).run = .running ∧ 32768 ≤ (progAt 32768 []).pc.toNat := by decide
theorem witness_InvalidOpcodeEndsTheRun : (progAt 32767 [22]).run = .running ∧ (progAt 32767 [22]).pc.toNat < 32768 ∧
    21 < ((progAt 32767 [22]).mem.read (progAt 32767 [22]).pc.toNat).toNat := by decide
/-- ADD at 32765 is truncated, at 32764 it is not (F5, F6). -/
theorem witness_TruncationIsByMemorySize :
    ((progAt 32765 [9]).run = .running ∧ (progAt 32765 [9]).pc.toNat < 32768 ∧
      mnemonicOf ((progAt 32765 [9]).mem.read (progAt 32765 [9]).pc.toNat) = some .ADD ∧
      32768 < (progAt 32765 [9]).pc.toNat + 1 + Mnemonic.ADD.nparams) ∧
    ((progAt 32764 [9]).run = .running ∧ (progAt 32764 [9]).pc.toNat < 32768 ∧
      mnemonicOf ((progAt 32764 [9]).mem.read (progAt 32764 [9]).pc.toNat) = some .ADD ∧
      (progAt 32764 [9]).pc.toNat + 1 + Mnemonic.ADD.nparams ≤ 32768) := by decide
theorem witness_StepOutcomes : (raise .halt State.reset).run = .halted ∧ State.reset.run = .running ∧ State.reset.cause = none := by
  decide
theorem witness_StepRaisesExactlyTheFirstCondition : State.reset.run = .running ∧ State.reset.cause = none ∧
    (∃ t, step State.reset = .next t) ∧ stepCause State.reset = some .halt ∧
    (progAt 4 [21]).run = .running ∧ (progAt 4 [21]).cause = none ∧ (∃ t, step (progAt 4 [21]) = .next t) ∧ stepCause (progAt 4 [21]) = none :=
  ⟨rfl, rfl, ⟨_, rfl⟩, rfl, rfl, rfl, ⟨_, rfl⟩, rfl⟩
theorem witness_EachRowRaisesItsOwnCause : (∃ t, exec (.pop (.reg 0)) State.reset = .next t) ∧
    ∃ t, exec .noop State.reset = .next t := ⟨⟨_, rfl⟩, _, rfl⟩
theorem witness_FaultsArePrecise : (progAt 0 [3, 0x8000]).run = .running ∧
    ∃ t, step (progAt 0 [3, 0x8000]) = .next t ∧ t.run = .halted := ⟨rfl, _, rfl, rfl⟩
/-- Both rows that raise `StackUnderflow`, whose `pc` differ (R172). -/
theorem witness_PcLeftInHalted :
    ((progAt 0 [3, 0x8000]).run = .running ∧ (progAt 0 [3, 0x8000]).cause = none ∧
      ∃ t, step (progAt 0 [3, 0x8000]) = .next t ∧ t.cause = some .stackUnderflow) ∧
    ((progAt 0 [18]).run = .running ∧ (progAt 0 [18]).cause = none ∧
      ∃ t, step (progAt 0 [18]) = .next t ∧ t.cause = some .stackUnderflow) := ⟨⟨rfl, rfl, _, rfl, rfl⟩, rfl, rfl, _, rfl, rfl⟩
theorem witness_SafeStepsRaiseNoFailure : State.reset.Inv ∧ State.reset.SafeStep := ⟨by decide, rfl, .inr rfl⟩
theorem witness_OnlyTheWrittenCellChanges :
    (∃ t, exec (.set (.reg 0) (.lit 4)) State.reset = .next t ∧ t.getReg 0 ≠ State.reset.getReg 0) ∧
    (∃ t, exec (.wmem (.lit 9) (.lit 4)) State.reset = .next t ∧ t.mem.read 9 ≠ State.reset.mem.read 9) :=
  ⟨⟨_, rfl, by decide⟩, _, rfl, by decide⟩
theorem witness_StackReachedOnlyByItsInstructions : (∃ t, exec .noop State.reset = .next t) ∧
    Mnemonic.NOOP ∉ [Mnemonic.PUSH, .POP, .CALL, .RET] ∧ (∃ t, exec (.push (.lit 1)) State.reset = .next t) ∧
    ∃ t, exec .ret { State.reset with sp := 1 } = .next t := ⟨⟨_, rfl⟩, by decide, ⟨_, rfl⟩, _, rfl⟩
theorem witness_PortsReachedOnlyByOutAndIn : (∃ t, exec .noop State.reset = .next t) ∧
    (∃ t, exec (.out (.lit 1)) State.reset = .next t) ∧ ∃ t, exec (.inp (.reg 0)) { State.reset with input := [1] } = .next t :=
  ⟨⟨_, rfl⟩, ⟨_, rfl⟩, _, rfl⟩
theorem witness_DefaultNextInstruction :
    (Mnemonic.NOOP ∉ [Mnemonic.JMP, .JT, .JF, .CALL, .RET] ∧ ¬ waits .noop State.reset ∧ ∃ t, exec .noop State.reset = .next t) ∧
    ((value (.reg 0) State.reset).toNat = 0 ∧ ∃ t, exec (.jt (.reg 0) (.lit 5)) State.reset = .next t) ∧
    ((value (.lit 1) State.reset).toNat ≠ 0 ∧ ∃ t, exec (.jf (.lit 1) (.lit 5)) State.reset = .next t) :=
  ⟨⟨by decide, by simp [waits, Instr.mnemonic], _, rfl⟩, ⟨rfl, _, rfl⟩, by decide, _, rfl⟩
theorem witness_SetCopiesItsSource : State.reset.mem.wf 32768 := by decide
theorem witness_PushPushesOrOverflows : State.reset.stack.wf 1024 ∧ { State.reset with sp := 1023 }.sp ≤ 1024 ∧
    { State.reset with sp := 1023 }.sp ≠ 1024 ∧ { State.reset with sp := 1024 }.sp = 1024 := by decide
theorem witness_PopPopsOrUnderflows : State.reset.mem.wf 32768 ∧ State.reset.sp = 0 ∧ { State.reset with sp := 1 }.sp ≠ 0 := by decide
theorem witness_EqAndGtWriteOneOrZero : (progAt 0 [4, 5, 0x8001, 5]).mem.wf 32768 := by decide
theorem witness_CallPushesAndJumpsOrOverflows : State.reset.stack.wf 1024 ∧ { State.reset with sp := 1023 }.sp ≤ 1024 ∧
    { State.reset with sp := 1023 }.sp ≠ 1024 ∧ { State.reset with sp := 1024 }.sp = 1024 := by decide
theorem witness_RetPopsIntoPcOrUnderflows : State.reset.sp = 0 ∧ { State.reset with sp := 1 }.sp ≠ 0 := by decide
/-- Each of the five transfers, with the target 32768. -/
theorem witness_TargetsAreCheckedByTheNextStep :
    (State.reset.setReg 2 32768).run = .running ∧ value (.reg 2) (State.reset.setReg 2 32768) = 32768 ∧
    (∃ t, exec (.jmp (.reg 2)) (State.reset.setReg 2 32768) = .next t) ∧
    (∃ t, exec (.jt (.lit 1) (.reg 2)) (State.reset.setReg 2 32768) = .next t) ∧
    (∃ t, exec (.jf (.lit 0) (.reg 2)) (State.reset.setReg 2 32768) = .next t) ∧
    (∃ t, exec (.call (.reg 2)) (State.reset.setReg 2 32768) = .next t) ∧
    ∃ t, exec .ret { State.reset with sp := 1, stack := [(0, 32768)] } = .next t :=
  ⟨rfl, by decide, ⟨_, rfl⟩, ⟨_, rfl⟩, ⟨_, rfl⟩, ⟨_, rfl⟩, _, rfl⟩
theorem witness_ReturnGoesBehindTheCall : State.reset.stack.wf 1024 ∧ State.reset.sp < 1024 ∧
    ∃ t, exec (.call (.lit 200)) State.reset = .next t ∧ t.sp = t.sp ∧ ∀ k, k < t.sp → t.stack.read k = t.stack.read k :=
  ⟨by decide, by decide, _, rfl, rfl, fun _ _ => rfl⟩
theorem witness_ArithmeticResultTable : (value (.lit 1) State.reset).toNat ≠ 0 ∧ (value (.lit 32767) State.reset).toNat < 32768 := by
  decide
theorem witness_AddAndMultReduce : (progAt 0 [9, 100, 1, 2]).mem.wf 32768 := by decide
theorem witness_ModWritesTheRemainderOrRaises : State.reset.mem.wf 32768 ∧ value (.lit 0) State.reset = 0 ∧
    value (.lit 1) State.reset ≠ 0 := by decide
theorem witness_AndAndOrAreBitwise : (progAt 0 [12, 100, 1, 2]).mem.wf 32768 := by decide
theorem witness_NotComplementsFifteenBits : (progAt 0 [14, 100, 1]).mem.wf 32768 := by decide
theorem witness_DomainClosure : (40000 : Word).toNat ≠ 0 ∧ 32767 < (modResult 39999 40000).toNat := by decide
theorem witness_RmemLoadsOrRaises : State.reset.mem.wf 32768 ∧ (value (.lit 32767) State.reset).toNat ≤ 32767 ∧
    32767 < (value (.reg 1) (State.reset.setReg 1 32768)).toNat := by decide
theorem witness_WmemStoresOrRaises : State.reset.mem.wf 32768 ∧ (value (.lit 32767) State.reset).toNat ≤ 32767 ∧
    32767 < (value (.reg 1) (State.reset.setReg 1 32768)).toNat := by decide
/-- A store of 22, the smallest invalid opcode, at the address after the WMEM. -/
theorem witness_StoreIsSeenByTheNextFetch : (State.reset.setPc 3).mem.wf 32768 ∧ (State.reset.setPc 3).run = .running ∧
    (State.reset.setPc 3).pc.toNat < 32768 ∧ value (.lit 3) (State.reset.setPc 3) = (State.reset.setPc 3).pc ∧
    21 < (value (.lit 22) (State.reset.setPc 3)).toNat ∧ ∃ t, exec (.wmem (.lit 3) (.lit 22)) (State.reset.setPc 3) = .next t :=
  ⟨by decide, rfl, by decide, rfl, by decide, _, rfl⟩
theorem witness_InReadsOneCharacterOrRaises : State.reset.mem.wf 32768 ∧ { State.reset with input := [104] }.input = 104 :: [] ∧
    State.reset.input = [] ∧ State.reset.inputEnded = true := by decide
theorem witness_InWaitsWithoutChange : ({ progAt 0 [20, 0x8000] with inputEnded := false }).run = .running ∧
    fetch { progAt 0 [20, 0x8000] with inputEnded := false } = .ok (.inp (.reg 0), 2) ∧
    waits (.inp (.reg 0)) { progAt 0 [20, 0x8000] with inputEnded := false } := ⟨rfl, rfl, rfl, rfl, rfl⟩
theorem witness_EarlierOutputChangesNoStep : (∃ t, step State.reset = .next t) ∧
    ∃ f, step (raise .halt State.reset) = .fault f := ⟨⟨_, rfl⟩, _, rfl⟩
theorem witness_WordsAboveTheDepthAreUnobservable : State.reset.stack.wf 1024 ∧ { State.reset with stack := [(0, 9)] }.stack.wf 1024 ∧
    AgreeBelowDepth State.reset { State.reset with stack := [(0, 9)] } ∧ ∃ t, step State.reset = .next t :=
  ⟨by decide, by decide, ⟨rfl, rfl, rfl, rfl, rfl, rfl, rfl, rfl, rfl, fun k h => absurd h (Nat.not_lt_zero k)⟩, _, rfl⟩

end Sys2Proof.Tests
end

section
/-! What every step keeps: the invariant, the reach of the stack and of the ports, and that words at and above the depth are
never observable. -/

namespace Sys2Proof.Machine

variable {i : Instr} {s t u : State} {k : Memory}

/-! ### What a step is -/

/-- A step happens in RUNNING only; it raises the cause of the fetch or runs the fetched instruction (R80 to R89). -/
theorem step_cases (h : step s = .next t) :
    s.run = .running ∧ ((∃ c q, fetch s = .error (c, q) ∧ t = raise c (s.setPc q)) ∨
      ∃ i q, fetch s = .ok (i, q) ∧ exec i (s.setPc q) = .next t) := by
  rcases hr : s.run with _ | _
  · rcases hf : fetch s with ⟨c, q⟩ | ⟨i, q⟩
    · rw [step_of_fetch_error hr hf] at h
      cases h
      exact ⟨rfl, .inl ⟨c, q, rfl, rfl⟩⟩
    · exact ⟨rfl, .inr ⟨i, q, rfl, step_of_fetch_ok hr hf ▸ h⟩⟩
  · simp [step_halted hr] at h

/-! ### The effects, read one part of the state at a time -/

@[simp] theorem Source.mem_eq (h : Source i s u) : u.mem = s.mem := by cases h <;> rfl

/-- An instruction writes at most one word of main memory, that of `writtenCell`. -/
theorem Effect.mem_cases (h : Effect i s t) :
    t.mem = s.mem ∨ ∃ p v, writtenCell i s = some (.mem p) ∧ t.mem = s.mem.write p v := by
  cases h with
  | wrote d v u hd hu hw =>
    cases d with
    | reg j => exact .inl hu.mem_eq
    | mem p => exact .inr ⟨p, v, hd, by rw [← hu.mem_eq]; rfl⟩
  | _ => exact .inl rfl

/-- The three things an instruction can do to the stack (R26, R31, R90, R91). -/
theorem Effect.stack_cases (h : Effect i s t) :
    (t.sp = s.sp ∧ t.stack = s.stack) ∨
    (i.mnemonic ∈ [Mnemonic.POP, .RET] ∧ t.sp + 1 = s.sp ∧ t.stack = s.stack) ∨
    (i.mnemonic ∈ [Mnemonic.PUSH, .CALL] ∧ s.sp < 1024 ∧ t.sp = s.sp + 1 ∧ ∃ v, t.stack = s.stack.write s.sp v) := by
  cases h with
  | wrote d v u hd hu hw =>
    cases hu with
    | popped hi hsp => exact .inr (.inl ⟨by simp [hi], by simp; omega, by simp⟩)
    | _ => exact .inl ⟨by simp, by simp⟩
  | pushed v q hsp hi => exact .inr (.inr ⟨by rcases hi with ⟨hi, -⟩ | hi <;> simp [hi], hsp, rfl, v, rfl⟩)
  | returned hsp hi => exact .inr (.inl ⟨by simp [hi], Nat.succ_pred_eq_of_ne_zero hsp, rfl⟩)
  | _ => exact .inl ⟨rfl, rfl⟩

/-- The three things an instruction can do to the ports (R29, R148, R150). -/
theorem Effect.ports_cases (h : Effect i s t) :
    t.inputEnded = s.inputEnded ∧
    ((t.out = s.out ∧ t.input = s.input) ∨
     (i.mnemonic = .OUT ∧ (∃ b, t.out = s.out ++ [b]) ∧ t.input = s.input) ∨
     (i.mnemonic = .IN ∧ t.out = s.out ∧ ∃ ch, s.input = ch :: t.input)) := by
  cases h with
  | wrote d v u hd hu hw =>
    cases hu with
    | consumed hi ch rest hin => exact ⟨by simp, .inr (.inr ⟨hi, by simp, ch, by simp [hin]⟩)⟩
    | _ => exact ⟨by simp, .inl ⟨by simp, by simp⟩⟩
  | emitted b hi => exact ⟨rfl, .inr (.inl ⟨hi, ⟨b, rfl⟩, rfl⟩)⟩
  | _ => exact ⟨rfl, .inl ⟨rfl, rfl⟩⟩

/-! ### The invariant -/

theorem setPc_inv (h : s.Inv) (v : Word) : (s.setPc v).Inv := h

/-- R28: a raise records a cause in HALTED. -/
theorem raise_inv (h : s.Inv) (c : Cause) : (raise c s).Inv := by
  obtain ⟨hmem, hstack, hsp, -⟩ := h
  exact ⟨hmem, hstack, hsp, by simp⟩

/-- An effect keeps the invariant when the memory word it may write lies in memory. -/
theorem Effect.inv (he : Effect i s t) (h : s.Inv) (hw : ∀ p, writtenCell i s = some (.mem p) → p < 32768) : t.Inv := by
  obtain ⟨hmem, hstack, hsp, hcause⟩ := h
  obtain ⟨hrun, hc⟩ := he.run_cause
  have hmem' : t.mem.wf Config.memWords := by
    rcases he.mem_cases with hm | ⟨p, v, hp, hm⟩
    · rwa [hm]
    · rw [hm]; exact Memory.write_wf hmem (hw p hp)
  have hstack' : t.stack.wf Config.stackWords ∧ t.sp ≤ Config.stackWords := by
    rcases he.stack_cases with ⟨hsp', hst⟩ | ⟨-, hsp', hst⟩ | ⟨-, hlt, hsp', v, hst⟩
    · rw [hst, hsp']; exact ⟨hstack, hsp⟩
    · rw [hst]; exact ⟨hstack, by omega⟩
    · rw [hst, hsp']; exact ⟨Memory.write_wf hstack hlt, hlt⟩
  exact ⟨hmem', hstack'.1, hstack'.2, by rwa [hrun, hc]⟩

theorem step_inv (h : s.Inv) (hs : step s = .next t) : t.Inv := by
  obtain ⟨-, ⟨c, q, -, rfl⟩ | ⟨i, q, hf, he⟩⟩ := step_cases hs
  · exact raise_inv (setPc_inv h q) c
  · rcases exec_cases he with ⟨c, -, rfl⟩ | ⟨hc, heff⟩
    · exact raise_inv (setPc_inv h q) c
    · exact heff.inv (setPc_inv h q) fun p hp => writtenCell_mem_lt hf hc hp

/-! ### A state with another stack array in it -/

/-- `s` with the array `k` in place of its stack's, the depth and all else as in `s`. -/
def State.withStack (k : Memory) (s : State) : State := { s with stack := k }

@[simp] theorem withStack_stack (k : Memory) (s : State) : (s.withStack k).stack = k := rfl
@[simp] theorem withStack_sp (k : Memory) (s : State) : (s.withStack k).sp = s.sp := rfl
@[simp] theorem withStack_mem (k : Memory) (s : State) : (s.withStack k).mem = s.mem := rfl
@[simp] theorem withStack_run (k : Memory) (s : State) : (s.withStack k).run = s.run := rfl

theorem setPc_withStack (v : Word) : (s.withStack k).setPc v = (s.setPc v).withStack k := rfl

theorem fetch_withStack : fetch (s.withStack k) = fetch s := rfl

@[simp] theorem value_withStack (o : Operand) : value o (s.withStack k) = value o s := by cases o <;> rfl

@[simp] theorem resolve_withStack (n j : Nat) (o : Operand) : resolve n j o (s.withStack k) = resolve n j o s := by
  cases o <;> rfl

@[simp] theorem cellWrite_withStack (d : Cell) (v : Word) :
    cellWrite d v (s.withStack k) = (cellWrite d v s).withStack k := by cases d <;> rfl

@[simp] theorem execCause_withStack : execCause i (s.withStack k) = execCause i s := by
  cases i <;> simp only [execCause, value_withStack] <;> rfl

/-- R33, R91: an instruction that pushes nothing reads of the stack no more than the top word, and does not write it. -/
theorem exec_withStack (hk : ∀ j, j < s.sp → k.read j = s.stack.read j) (hi : i.mnemonic ∉ [Mnemonic.PUSH, .CALL])
    (hc : execCause i s = none) (h : exec i s = .next t) : exec i (s.withStack k) = .next (t.withStack k) := by
  cases i
  case halt => simp [execCause] at hc
  case push a => simp [Instr.mnemonic] at hi
  case call a => simp [Instr.mnemonic] at hi
  case pop a =>
    simp only [execCause, ite_eq_right_iff, reduceCtorEq, imp_false] at hc
    rw [exec_pop hc] at h
    rw [exec_pop (s := s.withStack k) hc, withStack_stack, withStack_sp, hk _ (by omega), resolve_withStack]
    cases h
    exact congrArg _ (cellWrite_withStack (s := { s with sp := s.sp - 1 }) _ _)
  case ret =>
    simp only [execCause, ite_eq_right_iff, reduceCtorEq, imp_false] at hc
    rw [exec_ret hc] at h
    rw [exec_ret (s := s.withStack k) hc, withStack_stack, withStack_sp, hk _ (by omega)]
    cases h
    rfl
  case mod a b d =>
    simp only [execCause, ite_eq_right_iff, reduceCtorEq, imp_false] at hc
    rw [exec_mod hc] at h
    cases h
    rw [exec_mod (by simpa using hc)]
    simp
  case rmem a b =>
    simp only [execCause, ite_eq_left_iff, reduceCtorEq, imp_false] at hc
    rw [exec_rmem (by omega)] at h
    cases h
    rw [exec_rmem (by simp; omega)]
    simp
  case wmem a b =>
    simp only [execCause, ite_eq_left_iff, reduceCtorEq, imp_false] at hc
    rw [exec_wmem (by omega)] at h
    cases h
    rw [exec_wmem (by simp; omega)]
    simp only [value_withStack]
    rfl
  case inp a =>
    rcases hin : s.input with _ | ⟨ch, rest⟩
    · have he : s.inputEnded = false := by simpa [execCause, hin] using hc
      rw [exec_in_waits hin he] at h
      cases h
      exact exec_in_waits hin he
    · rw [exec_in hin] at h
      cases h
      rw [exec_in (s := s.withStack k) hin, resolve_withStack]
      exact congrArg _ (cellWrite_withStack (s := { s with input := rest }) _ _)
  case jt a b =>
    rw [exec_jt] at h ⊢
    cases h
    simp only [value_withStack, setPc_withStack, apply_ite (State.withStack k)]
  case jf a b =>
    rw [exec_jf] at h ⊢
    cases h
    simp only [value_withStack, setPc_withStack, apply_ite (State.withStack k)]
  case noop => cases h; rfl
  case out a =>
    cases h
    simp only [exec, execOut, value_withStack]
    rfl
  case jmp a =>
    cases h
    simp only [exec, execJmp, value_withStack]
    rfl
  -- What is left writes one cell with a result of its sources.
  all_goals
    cases h
    simp only [exec, execSet, execNot, execEq, execGt, execAdd, execMult, execAnd, execOr,
      value_withStack, resolve_withStack, cellWrite_withStack]

/-- R90, R118: PUSH and CALL put the same word on either array and do all else alike. -/
theorem exec_withStack_of_push (hi : i.mnemonic ∈ [Mnemonic.PUSH, .CALL]) (hc : execCause i s = none)
    (h : exec i s = .next t) :
    ∃ v, t.stack = s.stack.write s.sp v ∧ t.sp = s.sp + 1 ∧
      exec i (s.withStack k) = .next (t.withStack (k.write s.sp v)) := by
  cases i <;> simp only [Instr.mnemonic, List.mem_cons, List.not_mem_nil, reduceCtorEq, or_self] at hi
  case push a =>
    simp only [execCause, ite_eq_left_iff, reduceCtorEq, imp_false, Decidable.not_not] at hc
    rw [exec_push hc] at h
    cases h
    refine ⟨value a s, rfl, rfl, ?_⟩
    rw [exec_push (s := s.withStack k) hc, value_withStack]
    rfl
  case call a =>
    simp only [execCause, ite_eq_left_iff, reduceCtorEq, imp_false, Decidable.not_not] at hc
    rw [exec_call hc] at h
    cases h
    refine ⟨s.pc, rfl, rfl, ?_⟩
    rw [exec_call (s := s.withStack k) hc, value_withStack]
    rfl

/-- R33, R90: a push leaves the same words below the new depth, whatever stood at and above the old one. -/
theorem read_write_agree {j n : Nat} {m : Memory} {v : Word} {size : Nat} (hk : k.wf size) (hm : m.wf size)
    (h : ∀ j, j < n → k.read j = m.read j) (hj : j < n + 1) : (k.write n v).read j = (m.write n v).read j := by
  rw [Memory.read_write hk, Memory.read_write hm]
  split
  · rfl
  · exact h j (by omega)

end Sys2Proof.Machine

namespace Sys2Proof.Claims

open Sys2Proof.Machine

variable {i : Instr} {s s' t : State}

/-- Two states agree below the depth exactly when the second is the first with another array that agrees there. -/
theorem agreeBelowDepth_iff :
    AgreeBelowDepth s s' ↔ ∃ k, s' = s.withStack k ∧ ∀ j, j < s.sp → k.read j = s.stack.read j := by
  constructor
  · rintro ⟨hregs, hpc, hmem, hsp, hrun, hcause, hout, hin, hend, hk⟩
    refine ⟨s'.stack, ?_, hk⟩
    cases s
    cases s'
    simp_all [State.withStack]
  · rintro ⟨k, rfl, hk⟩
    exact ⟨rfl, rfl, rfl, rfl, rfl, rfl, rfl, rfl, rfl, hk⟩

/-- R33, R91 for an instruction's rule. -/
theorem exec_agreeBelowDepth {size : Nat} (hs : s.stack.wf size) (hs' : s'.stack.wf size) (h : AgreeBelowDepth s s')
    (he : exec i s = .next t) : ∃ t', exec i s' = .next t' ∧ AgreeBelowDepth t t' := by
  obtain ⟨k, rfl, hk⟩ := agreeBelowDepth_iff.1 h
  rcases exec_cases he with ⟨c, hc, rfl⟩ | ⟨hc, heff⟩
  · exact ⟨_, exec_raises (execCause_withStack.trans hc), agreeBelowDepth_iff.2 ⟨k, rfl, hk⟩⟩
  · by_cases hi : i.mnemonic ∈ [Mnemonic.PUSH, .CALL]
    · obtain ⟨v, hst, hsp, hx⟩ := exec_withStack_of_push hi hc he
      refine ⟨_, hx, agreeBelowDepth_iff.2 ⟨_, rfl, fun j hj => ?_⟩⟩
      rw [hst]
      exact read_write_agree hs' hs hk (hsp ▸ hj)
    · refine ⟨_, exec_withStack hk hi hc he, agreeBelowDepth_iff.2 ⟨k, rfl, fun j hj => ?_⟩⟩
      rcases heff.stack_cases with ⟨hsp, hst⟩ | ⟨-, hsp, hst⟩ | ⟨hpush, -⟩
      · rw [hst]; exact hk j (by omega)
      · rw [hst]; exact hk j (by omega)
      · exact absurd hpush hi

/-- R33, R91: the fetch reads no stack word, so two states that agree below the depth run the same instruction or raise the
same cause. -/
theorem step_agreeBelowDepth {size : Nat} (hs : s.stack.wf size) (hs' : s'.stack.wf size) (h : AgreeBelowDepth s s')
    (hstep : step s = .next t) : ∃ t', step s' = .next t' ∧ AgreeBelowDepth t t' := by
  obtain ⟨k, rfl, hk⟩ := agreeBelowDepth_iff.1 h
  obtain ⟨hr, hcases⟩ := step_cases hstep
  have hr' := (withStack_run k s).trans hr
  rcases hcases with ⟨c, q, hf, rfl⟩ | ⟨i, q, hf, he⟩
  · exact ⟨_, step_of_fetch_error hr' (fetch_withStack.trans hf), agreeBelowDepth_iff.2 ⟨k, rfl, hk⟩⟩
  · rw [step_of_fetch_ok hr' (fetch_withStack.trans hf), setPc_withStack]
    exact exec_agreeBelowDepth (s := s.setPc q) hs hs' (agreeBelowDepth_iff.2 ⟨k, rfl, hk⟩) he

/-! ### The rows that reach the stack and the output -/

theorem pop_row_is_no_push_row {m : Mnemonic} (h : m ∈ [Mnemonic.POP, .RET]) :
    m ∈ [Mnemonic.PUSH, .POP, .CALL, .RET] ∧ m ∉ [Mnemonic.PUSH, .CALL] := by
  simp only [List.mem_cons, List.not_mem_nil, or_false] at h
  rcases h with rfl | rfl <;> decide

theorem push_row_is_no_pop_row {m : Mnemonic} (h : m ∈ [Mnemonic.PUSH, .CALL]) :
    m ∈ [Mnemonic.PUSH, .POP, .CALL, .RET] ∧ m ∉ [Mnemonic.POP, .RET] := by
  simp only [List.mem_cons, List.not_mem_nil, or_false] at h
  rcases h with rfl | rfl <;> decide

/-- R147: OUT always emits; no condition stops it. -/
theorem exec_out_of_mnemonic (hi : i.mnemonic = .OUT) (h : exec i s = .next t) : ∃ b, t.out = s.out ++ [b] := by
  cases i <;> simp only [Instr.mnemonic, reduceCtorEq] at hi
  case out a => cases h; exact ⟨_, rfl⟩

/-! ### The statements -/

/-- Settles O6: every field of the state after reset is read off its definition. -/
theorem resetValues : Obligations.ResetValues := by
  refine ⟨fun i => ?_, rfl, fun _ => rfl, rfl, fun _ => rfl, rfl, rfl, rfl, rfl, rfl⟩
  simp [State.getReg, State.reset]

/-- Settles O9: the stores are empty at reset, and an image's store is canonical. -/
theorem resetSatisfiesInvariant : Obligations.ResetSatisfiesInvariant := by
  constructor
  · exact ⟨reset_mem_wf, Memory.nil_wf, Nat.zero_le _, by simp [State.reset]⟩
  · exact fun _ _ => ⟨Memory.ofImage_wf, Memory.nil_wf, Nat.zero_le _, by simp [State.load, State.reset]⟩

/-- Settles O10: each step raises, which changes no store, or has one effect, which writes inside the stores. -/
theorem stepKeepsInvariant : Obligations.StepKeepsInvariant := fun _ _ => step_inv

/-- Settles O53: the fetch and every rule read stack words below the depth only. -/
theorem wordsAboveTheDepthAreUnobservable : Obligations.WordsAboveTheDepthAreUnobservable :=
  fun _ _ _ => step_agreeBelowDepth

/-- Settles O27: a raise leaves the stack as it is, and an effect on it is one of three. -/
theorem stackReachedOnlyByItsInstructions : Obligations.StackReachedOnlyByItsInstructions := by
  intro i s t h
  rcases exec_cases h with ⟨c, -, rfl⟩ | ⟨-, heff⟩
  · exact ⟨fun _ => ⟨rfl, fun _ => rfl⟩, fun _ => .inl rfl, fun _ => ⟨.inl rfl, fun _ => rfl⟩⟩
  rcases heff.stack_cases with ⟨hsp, hst⟩ | ⟨hi, hsp, hst⟩ | ⟨hi, -, hsp, v, hst⟩
  · exact ⟨fun _ => ⟨hsp, by simp [hst]⟩, fun _ => .inl hsp, fun _ => ⟨.inl hsp, by simp [hst]⟩⟩
  · obtain ⟨hany, hpush⟩ := pop_row_is_no_push_row hi
    exact ⟨fun hn => absurd hany hn, fun hj => absurd hj hpush, fun _ => ⟨.inr hsp, by simp [hst]⟩⟩
  · obtain ⟨hany, hpop⟩ := push_row_is_no_pop_row hi
    refine ⟨fun hn => absurd hany hn, fun _ => .inr ⟨hsp, fun j hj => ?_⟩, fun hj => absurd hj hpop⟩
    rw [hst, Memory.read_write_other (Nat.ne_of_lt hj)]

/-- Settles O28: a raise leaves the ports as they are, and an effect on them is one of three; that OUT does emit is its rule's
own. -/
theorem portsReachedOnlyByOutAndIn : Obligations.PortsReachedOnlyByOutAndIn := by
  intro i s t h
  have hemit : i.mnemonic = .OUT → ∃ b, t.out = s.out ++ [b] := fun hi => exec_out_of_mnemonic hi h
  rcases exec_cases h with ⟨c, -, rfl⟩ | ⟨-, heff⟩
  · exact ⟨fun _ => rfl, hemit, fun _ => rfl, fun _ => .inl rfl, rfl⟩
  obtain ⟨hend, hports⟩ := heff.ports_cases
  rcases hports with ⟨hout, hin⟩ | ⟨hi, -, hin⟩ | ⟨hi, hout, ch, hin⟩
  · exact ⟨fun _ => hout, hemit, fun _ => hin, fun _ => .inl hin, hend⟩
  · exact ⟨fun hn => absurd hi hn, hemit, fun _ => hin, fun _ => .inl hin, hend⟩
  · exact ⟨fun _ => hout, hemit, fun hn => absurd hi hn, fun _ => .inr ⟨ch, hin⟩, hend⟩

end Sys2Proof.Claims
end

section
/-! Main memory: what it holds after an image is loaded (R34, R44, R52), what a checked access does (R41, R42), and that the
fetch reads the memory the last store left (R51). -/

namespace Sys2Proof.Machine

variable {s : State} {a v : Word}

/-! ### The image -/

/-- R52: inside main memory a word of the loaded image or the 0 behind it, outside nothing. -/
theorem read_load (image : List Word) (input : List Byte) (k : Nat) :
    (State.load image input).mem.read k = if k < 32768 then image.getD k 0 else 0 := by
  have hload : (State.load image input).mem.read k = (image.take 32768).getD k 0 := Memory.read_ofImage
  rw [hload, List.getD_eq_getElem?_getD, List.getElem?_take]
  split
  · rw [List.getD_eq_getElem?_getD]
  · rfl

/-- R44: two bytes form a word. -/
theorem length_imageOfBytes : ∀ bytes : List Byte, (imageOfBytes bytes).length = bytes.length / 2
  | [] => rfl
  | [_] => (Nat.div_eq_of_lt Nat.one_lt_two).symm
  | lo :: hi :: rest => by
    rw [imageOfBytes, List.length_cons, length_imageOfBytes rest, List.length_cons, List.length_cons]
    omega

/-- R44: the word of two bytes, low byte first, fits in 16 bits. -/
theorem toNat_littleEndianWord (lo hi : Byte) :
    (BitVec.ofNat 16 (lo.toNat + 256 * hi.toNat)).toNat = lo.toNat + 256 * hi.toNat :=
  toNat_ofNat_of_lt (by omega)

/-- R44: word `k` comes from bytes `2k` and `2k + 1`. -/
theorem toNat_getD_imageOfBytes : ∀ {bytes : List Byte} {k : Nat}, k < bytes.length / 2 →
    ((imageOfBytes bytes).getD k 0).toNat = (bytes.getD (2 * k) 0).toNat + 256 * (bytes.getD (2 * k + 1) 0).toNat
  | lo :: hi :: _, 0, _ => toNat_littleEndianWord lo hi
  | _ :: _ :: rest, k + 1, hk => by
    rw [List.length_cons, List.length_cons] at hk
    exact toNat_getD_imageOfBytes (bytes := rest) (by omega)
  | [_], k, hk => by rw [List.length_singleton] at hk; omega

/-! ### Stores as cell writes -/

/-- R42: a checked write below the bound is the write of that memory cell. -/
theorem memWrite_eq_cellWrite (h : a.toNat < 32768) : memWrite a v s = .ok (cellWrite (.mem a.toNat) v s) :=
  memWrite_eq_ok.2 ⟨h, rfl⟩

/-- R141: a WMEM that raises nothing is the write of the memory cell its first parameter gives. -/
theorem exec_wmem_eq_cellWrite {a b : Operand} (h : (value a s).toNat < 32768) :
    exec (.wmem a b) s = .next (cellWrite (.mem (value a s).toNat) (value b s) s) :=
  exec_wmem h

/-- R87: a memory cell holds what was written to it. -/
theorem read_cellWrite_mem {p size : Nat} (h : s.mem.wf size) : (cellWrite (.mem p) v s).mem.read p = v := by
  rw [read_cellWrite h, if_pos rfl]

end Sys2Proof.Machine

namespace Sys2Proof.Claims

open Sys2Proof.Machine

/-- R9: a raise ends the run with its cause and changes nothing else. -/
theorem raisesOnly_raise (c : Cause) (s : State) : RaisesOnly c s (raise c s) :=
  ⟨rfl, rfl, rfl, fun _ => rfl, fun _ => rfl, ⟨rfl, fun _ => rfl⟩, rfl, rfl, rfl⟩

/-- R87: a write changes its cell and nothing else. -/
theorem writesOnly_cellWrite {s : State} {size : Nat} (h : s.mem.wf size) (d : Cell) (v : Word) :
    WritesOnly d v s (cellWrite d v s) :=
  ⟨⟨fun _ => getReg_cellWrite, fun _ => read_cellWrite h⟩, cellWrite_pc s v d, ⟨cellWrite_sp s v d, by simp⟩,
    ⟨cellWrite_run s v d, cellWrite_cause s v d⟩, cellWrite_out s v d, cellWrite_input s v d, cellWrite_inputEnded s v d⟩

/-- R66, R82: a step at a word that is no opcode raises `InvalidOpcode` of it where it stands. -/
theorem step_invalidOpcode {s : State} (hr : s.run = .running) (hp : s.pc.toNat < 32768)
    (ho : 21 < (s.mem.read s.pc.toNat).toNat) :
    ∃ u, step s = .next u ∧ RaisesOnly (.invalidOpcode (s.mem.read s.pc.toNat)) s u := by
  refine ⟨_, step_of_fetch_error hr (fetch_invalidOpcode hp ho), ?_⟩
  rw [setPc_self]
  exact raisesOnly_raise _ s

/-! ### The statements -/

/-- Settles O7: a word of the image inside memory, 0 behind the image and outside memory; the rest by definition. -/
theorem loadedImageFillsMemory : Obligations.LoadedImageFillsMemory := by
  intro image input
  refine ⟨fun k _ hk => ?_, fun k hk => ?_, rfl, rfl, rfl, rfl, rfl, rfl, rfl, rfl, rfl⟩
  · rw [read_load, if_pos hk]
  · rw [read_load]
    rcases hk with hbehind | houtside
    · rw [List.getD_eq_default _ _ hbehind, ite_self]
    · rw [if_neg (Nat.not_lt.2 houtside)]

/-- Settles O8, by induction along the pairs of bytes. -/
theorem imageFileIsLittleEndian : Obligations.ImageFileIsLittleEndian :=
  fun bytes => ⟨length_imageOfBytes bytes, fun _ => toNat_getD_imageOfBytes⟩

/-- Settles O11: above the bound both accesses raise; below it the write is that of one memory cell, which then reads as the
value. -/
theorem checkedMemoryAccess : Obligations.CheckedMemoryAccess := by
  intro s a v hwf
  constructor
  · intro ha
    have hwrite : memWrite a v s = .error (.outOfBounds (.ea a)) := memWrite_eq_error.2 ⟨ha, rfl⟩
    exact ⟨memRead_eq_error.2 ⟨ha, rfl⟩, hwrite, _, finish_eq_next.2 (.inr ⟨_, hwrite, rfl⟩), raisesOnly_raise _ s⟩
  · intro ha
    have hlt : a.toNat < 32768 := Nat.lt_succ_of_le ha
    exact ⟨memRead_eq_ok.2 ⟨hlt, rfl⟩, _, memWrite_eq_cellWrite hlt, writesOnly_cellWrite hwf _ v,
      memRead_eq_ok.2 ⟨hlt, (read_cellWrite_mem hwf).symm⟩⟩

/-- Settles O47: the store leaves `pc` and the run state, so the next fetch reads the stored word as its opcode. -/
theorem storeIsSeenByTheNextFetch : Obligations.StoreIsSeenByTheNextFetch := by
  intro a b s t hwf hrun hpc ha h
  rw [exec_wmem_eq_cellWrite (ha ▸ hpc), ha] at h
  obtain rfl := Host.Outcome.next.inj h
  have hread : (cellWrite (.mem s.pc.toNat) (value b s) s).mem.read s.pc.toNat = value b s := read_cellWrite_mem hwf
  refine ⟨hread, fun i q hf => ?_, fun ho => ?_⟩
  · obtain ⟨-, hop, -⟩ := fetch_eq_ok.1 hf
    exact hop.symm.trans hread
  · have hstep := step_invalidOpcode (s := cellWrite (.mem s.pc.toNat) (value b s) s) hrun hpc
    rw [cellWrite_pc, hread] at hstep
    exact hstep ho

end Sys2Proof.Claims
end

section
/-! The encoding: decoding inverts encoding (R72), what an opcode word and a parameter word stand for (R61, R62, R67), and the
one storage cell an instruction may change (R65, R87). -/

namespace Sys2Proof

variable {i : Instr} {ws rest : List Word}

/-! ### Instructions and their words -/

/-- R62, R72: parameter words of well-formed operands decode to these operands. -/
theorem map_decodeOperand_encodeOperand {os : List Operand} (h : os.all Operand.wf = true) :
    (os.map encodeOperand).map decodeOperand = os := by
  have hid : ∀ o ∈ os, (decodeOperand ∘ encodeOperand) o = id o :=
    fun o ho => decodeOperand_encodeOperand (List.all_eq_true.1 h o ho)
  rw [List.map_map, List.map_congr_left hid, List.map_id]

/-- R60, R64: an instruction takes as many parameter words as its row says. -/
theorem length_map_encodeOperand_operands (i : Instr) :
    (i.operands.map encodeOperand).length = i.mnemonic.nparams := by
  rw [List.length_map, operands_length]

/-- R72: the decoder takes exactly the words of a well-formed instruction, so what follows them plays no part. -/
theorem decode_encode_append (h : i.wf = true) (rest : List Word) : decode (encode i ++ rest) = .ok (i, rest) := by
  have hlen := length_map_encodeOperand_operands i
  refine decode_eq_ok.2 ⟨i.mnemonic.opcodeWord, i.operands.map encodeOperand ++ rest, rfl, rfl, ?_, ?_, ?_⟩
  · rw [List.length_append, hlen]; exact Nat.le_add_right _ _
  · rw [List.take_left' hlen, map_decodeOperand_encodeOperand h]
  · rw [List.drop_left' hlen]

theorem length_encode (i : Instr) : (encode i).length = i.length := by
  rw [encode, List.length_cons, List.length_map, Instr.length, Nat.add_comm]

/-- R60, R64: no instruction is longer than four words. -/
theorem instr_length_le (i : Instr) : i.length ≤ 4 := by
  have := nparams_le i.mnemonic
  rw [Instr.length, operands_length]
  omega

/-- R63: a decoded instruction's parameters are the words behind the opcode word, each decoded by itself. -/
theorem operands_of_decode_cons {op : Word} {ps : List Word} (h : decode (op :: ps) = .ok (i, rest)) :
    i.operands = (ps.take i.mnemonic.nparams).map decodeOperand := by
  obtain ⟨op', ps', hws, -, -, hos, -⟩ := decode_eq_ok.1 h
  obtain ⟨-, rfl⟩ := List.cons.inj hws
  exact hos

/-- R60, R63: the words of a decoded instruction and the words left over are all the words given. -/
theorem length_of_decode (h : decode ws = .ok (i, rest)) : ws.length = i.length + rest.length := by
  obtain ⟨op, ps, rfl, -, hle, -, rfl⟩ := decode_eq_ok.1 h
  rw [List.length_cons, List.length_drop, Instr.length, operands_length]
  omega

/-! ### The parameter word -/

/-- R62, R67: the three low bits of a word are its remainder modulo 8. -/
theorem toNat_and_seven (w : Word) : (w &&& 7).toNat = w.toNat % 8 := by
  rw [BitVec.toNat_and]
  exact Nat.and_two_pow_sub_one_eq_mod w.toNat 3

/-- R67, R72: the canonical reference to register `i`. -/
theorem toNat_encodeOperand_reg (i : RegIndex) : (encodeOperand (.reg i)).toNat = 32768 + i.val :=
  Machine.toNat_ofNat_of_lt (by omega)

end Sys2Proof

namespace Sys2Proof.Machine

variable {i : Instr} {s t u : State} {j : RegIndex} {p : Nat}

/-! ### The cells an instruction leaves as they are -/

@[simp] theorem Source.getReg_eq (h : Source i s u) : u.getReg j = s.getReg j := by cases h <;> rfl

theorem Effect.getReg_eq (h : Effect i s t) (hj : writtenCell i s ≠ some (.reg j)) : t.getReg j = s.getReg j := by
  cases h with
  | wrote d v u hd hu hw =>
    have hne : d ≠ .reg j := fun hdj => hj (hdj ▸ hd)
    rw [getReg_cellWrite, if_neg hne, hu.getReg_eq]
  | _ => rfl

theorem Effect.read_mem_eq (h : Effect i s t) (hp : writtenCell i s ≠ some (.mem p)) : t.mem.read p = s.mem.read p := by
  rcases h.mem_cases with hm | ⟨q, v, hq, hm⟩
  · rw [hm]
  · have hne : p ≠ q := fun hpq => hp (hpq ▸ hq)
    rw [hm, Memory.read_write_other hne]

/-- R65, R87: a register other than the written cell keeps its word, whether the instruction completes or raises. -/
theorem exec_getReg_eq (h : exec i s = .next t) (hj : writtenCell i s ≠ some (.reg j)) : t.getReg j = s.getReg j := by
  rcases exec_cases h with ⟨c, -, rfl⟩ | ⟨-, heff⟩
  · exact raise_getReg s j c
  · exact heff.getReg_eq hj

/-- R65, R87, R141: a memory word other than the written cell stays, whether the instruction completes or raises. -/
theorem exec_read_mem_eq (h : exec i s = .next t) (hp : writtenCell i s ≠ some (.mem p)) :
    t.mem.read p = s.mem.read p := by
  rcases exec_cases h with ⟨c, -, rfl⟩ | ⟨-, heff⟩
  · rw [raise_mem]
  · exact heff.read_mem_eq hp

end Sys2Proof.Machine

namespace Sys2Proof.Claims

open Sys2Proof.Machine

/-! ### The statements -/

/-- Settles O1: the opcode word selects the instruction's row, and each parameter word decodes to its operand. -/
theorem decodeOfEncodeIsTheInstruction : Obligations.DecodeOfEncodeIsTheInstruction :=
  fun _ rest hwf => decode_encode_append hwf rest

/-- Settles O3: bit 15 is the comparison with 32768, and `w &&& 7` is the remainder the decoder takes. -/
theorem parameterWordForms : Obligations.ParameterWordForms := by
  refine ⟨fun w hw => ?_, fun w hw => ?_, fun i => ?_⟩
  · have hdec := decodeOperand_reg hw
    exact ⟨_, hdec, (toNat_and_seven w).symm, fun s => by rw [hdec]; rfl⟩
  · have hdec := decodeOperand_lit hw
    exact ⟨hdec, fun s => by rw [hdec]; rfl⟩
  · exact ⟨toNat_encodeOperand_reg i, decodeOperand_encodeOperand rfl⟩

/-- Settles O4, by the three ways an opcode word and the words behind it decode. -/
theorem opcodeWordSelectsRowAndLength : Obligations.OpcodeWordSelectsRowAndLength := by
  intro op ps
  refine ⟨decode_invalidOpcode, fun hop => ?_⟩
  rcases decode_cons op ps with ⟨habove, -⟩ | ⟨m, rfl, hm⟩
  · exact absurd habove (Nat.not_lt.2 hop)
  refine ⟨m, (toNat_opcodeWord m).symm, decode_truncated, fun hle => ?_⟩
  rcases hm with ⟨hlt, -⟩ | ⟨-, i, rfl, hdec⟩
  · exact absurd hlt (Nat.not_lt.2 hle)
  · exact ⟨i, rfl, hdec, operands_of_decode_cons hdec⟩

/-- Settles O5: decoded parameters are well formed, and the row fixes the length. -/
theorem decodedInstructionsAreWellFormed : Obligations.DecodedInstructionsAreWellFormed :=
  fun _ _ i h => ⟨instr_wf_of_decode h, length_of_decode h, instr_length_le i, length_encode i⟩

/-- Settles O26: a cell that changes is not one of those an instruction leaves as they are. -/
theorem onlyTheWrittenCellChanges : Obligations.OnlyTheWrittenCellChanges :=
  fun _ _ _ h => ⟨fun _ => not_imp_comm.1 (exec_getReg_eq h), fun _ => not_imp_comm.1 (exec_read_mem_eq h)⟩

/-- Settles O2: each list of words is closed, and the decoder evaluates on it. -/
theorem exampleWordsDecode : Obligations.ExampleWordsDecode := by
  unfold Obligations.ExampleWordsDecode
  and_intros
  all_goals rfl

end Sys2Proof.Claims
end

section
/-! Fetch, cells, the stack operations and the step: what each front-end operation answers and leaves unchanged (R80 to
R93). -/

namespace Sys2Proof.Machine

variable {i : Instr} {s t : State} {v w q : Word} {k : Nat} {o : Operand}

/-! ### Cells and parameters -/

/-- R86, R87: a cell reads as the word written to it last. -/
theorem cellRead_cellWrite {size : Nat} (h : s.mem.wf size) (d : Cell) (v : Word) : cellRead d (cellWrite d v s) = v := by
  cases d with
  | reg j => exact getReg_setReg_same s j v
  | mem p => exact read_cellWrite_mem h

/-- R62: only a word with bit 15 clear decodes to a literal, and then to itself. -/
theorem decodeOperand_eq_lit : decodeOperand w = .lit v ↔ w = v ∧ w.toNat < 32768 := by
  by_cases hw : w.toNat < 32768
  · simp [decodeOperand_lit hw, hw]
  · simp [decodeOperand_reg (Nat.not_lt.1 hw), hw]

/-- R84: parameter `k` of a fetched instruction is the `k`-th word behind the opcode word, decoded. -/
theorem fetch_ok_operand (hf : fetch s = .ok (i, q)) (hk : i.operands[k]? = some o) :
    o = decodeOperand (s.mem.read (s.pc.toNat + 1 + k)) := by
  obtain ⟨-, -, hos, -⟩ := fetch_eq_ok.1 hf
  rw [hos, List.getElem?_map, Option.map_eq_some_iff] at hk
  obtain ⟨j, hj, rfl⟩ := hk
  obtain ⟨-, rfl⟩ := List.getElem?_eq_some_iff.1 hj
  rw [List.getElem_range]

/-- R85, R86: the cell of a literal parameter is its own word in memory, which holds the literal. -/
theorem fetch_ok_literal (hf : fetch s = .ok (i, q)) (hk : i.operands[k]? = some (.lit v)) :
    v.toNat ≤ 32767 ∧ resolve i.operands.length k (.lit v) (s.setPc q) = .mem (s.pc.toNat + 1 + k) ∧
      s.mem.read (s.pc.toNat + 1 + k) = v := by
  obtain ⟨hread, hlt⟩ := decodeOperand_eq_lit.1 (fetch_ok_operand hf hk).symm
  exact ⟨by rw [← hread]; omega, congrArg Cell.mem (fetch_ok_paramAddr hf k), hread⟩

/-- R86, R88: the value of a fetched instruction's parameter is what its cell reads as. -/
theorem fetch_ok_cellRead (hf : fetch s = .ok (i, q)) (hk : i.operands[k]? = some o) :
    cellRead (resolve i.operands.length k o (s.setPc q)) (s.setPc q) = value o (s.setPc q) := by
  cases o with
  | reg j => rfl
  | lit v =>
    obtain ⟨-, hcell, hread⟩ := fetch_ok_literal hf hk
    rw [hcell]
    exact hread

/-! ### The stack -/

/-- R90, R91: a pop takes back the word just pushed. -/
theorem pop_of_push {size : Nat} (h : s.stack.wf size) (hpush : push v s = .ok t) :
    ∃ u, pop t = .ok (v, u) ∧ u.sp = s.sp := by
  obtain ⟨-, ht⟩ := push_eq_ok.1 hpush
  have hsp : t.sp = s.sp + 1 := by rw [ht]
  have htop : t.stack.read (t.sp - 1) = v := by rw [ht]; exact Memory.read_write_same h
  exact ⟨{ t with sp := t.sp - 1 }, pop_eq_ok.2 ⟨by omega, by rw [htop]⟩, Nat.sub_eq_of_eq_add hsp⟩

/-! ### The fetch -/

/-- R60: the words from `p` upward are the word at `p` and those from `p + 1` upward. -/
theorem map_read_range_one_add (m : Memory) (p n : Nat) :
    (List.range (1 + n)).map (fun k => m.read (p + k)) = m.read p :: (List.range n).map fun k => m.read (p + 1 + k) := by
  rw [Nat.add_comm 1 n, List.range_succ_eq_map, List.map_cons, List.map_map, Nat.add_zero]
  refine congrArg _ (List.map_congr_left fun k _ => ?_)
  rw [Function.comp_apply, Nat.succ_eq_add_one, Nat.add_assoc, Nat.add_comm 1 k]

/-- R84: an instruction whose words stand at `pc`, and no more of them than it takes, is the one fetched. -/
theorem fetch_of_decode {n : Nat} (hfit : s.pc.toNat + 1 + n ≤ 32768)
    (hd : decode ((List.range (1 + n)).map fun k => s.mem.read (s.pc.toNat + k)) = .ok (i, [])) :
    i.length = 1 + n ∧ fetch s = .ok (i, s.pc + BitVec.ofNat 16 (1 + n)) := by
  have hlen : i.length = 1 + n := by simpa using (length_of_decode hd).symm
  have hn : i.mnemonic.nparams = n := by rw [Instr.length, operands_length] at hlen; omega
  rw [map_read_range_one_add] at hd
  obtain ⟨op, ps, hws, hop, -⟩ := decode_eq_ok.1 hd
  have hos := operands_of_decode_cons hd
  rw [hn, ← List.map_take, List.take_range, Nat.min_self, List.map_map] at hos
  refine ⟨hlen, fetch_eq_ok.2 ⟨hn ▸ hfit, (List.cons.inj hws).1.trans hop, hn ▸ hos, by rw [hlen]⟩⟩

/-- R83: an opcode word whose parameter words all lie in memory starts an instruction of its row. -/
theorem exists_fetch_ok {m : Mnemonic} (hm : mnemonicOf (s.mem.read s.pc.toNat) = some m)
    (hfit : s.pc.toNat + 1 + m.nparams ≤ 32768) :
    ∃ i : Instr, i.mnemonic = m ∧ fetch s = .ok (i, s.pc + BitVec.ofNat 16 i.length) := by
  have hrow : ∀ {m' : Mnemonic}, s.mem.read s.pc.toNat = m'.opcodeWord → m' = m := fun h =>
    Option.some.inj ((mnemonicOf_eq_some.2 h).symm.trans hm)
  rcases fetch_cases s with ⟨hp, -⟩ | ⟨-, ho, -⟩ | ⟨m', -, ho, hover, -⟩ | ⟨i, -, ho, hf⟩
  · omega
  · rw [mnemonicOf_eq_none.2 ho] at hm
    cases hm
  · rw [hrow ho] at hover
    omega
  · exact ⟨i, hrow ho, hf⟩

/-! ### The instruction pointer -/

/-- R93: outside the five transfers only an IN that waits moves `pc`. -/
theorem Effect.pc_eq (h : Effect i s t) (hi : i.mnemonic ∉ [Mnemonic.JMP, .JT, .JF, .CALL, .RET]) (hw : ¬ waits i s) :
    t.pc = s.pc := by
  cases h with
  | wrote d v u hd hu _ => cases hu <;> exact cellWrite_pc _ _ _
  | nothing => rfl
  | jumped v hj =>
    simp only [List.mem_cons, List.not_mem_nil, or_false] at hj
    rcases hj with hj | hj | hj <;> simp [hj] at hi
  | waited hwait => exact absurd hwait hw
  | pushed v q _ hpush =>
    rcases hpush with ⟨-, hq⟩ | hcall
    · exact hq
    · simp [hcall] at hi
  | returned _ hret => simp [hret] at hi
  | emitted b _ => rfl

end Sys2Proof.Machine

namespace Sys2Proof.Claims

open Sys2Proof.Machine

variable {i : Instr} {s t : State}

/-- R9: an operation that fails with a cause ends the run with it, in the state the instruction began in. -/
theorem finish_error_raisesOnly {r : Except Cause State} {c : Cause} (h : r = .error c) :
    ∃ t, finish s r = .next t ∧ RaisesOnly c s t :=
  ⟨_, finish_eq_next.2 (.inr ⟨c, h, rfl⟩), raisesOnly_raise c s⟩

/-- R90: what a push that succeeds changes. -/
theorem pushesOnly_of_push {size : Nat} {v : Word} (h : s.stack.wf size) (hpush : push v s = .ok t) :
    PushesOnly v s.pc s t := by
  obtain ⟨-, rfl⟩ := push_eq_ok.1 hpush
  exact ⟨rfl, fun _ => Memory.read_write h, rfl, fun _ => rfl, fun _ => rfl, ⟨rfl, rfl⟩, rfl, rfl, rfl⟩

/-- R81 to R83: a failed fetch ends the run, with nothing changed but `pc`. -/
theorem step_fetch_error_raisesOnly {c : Cause} {q : Word} (hr : s.run = .running) (hf : fetch s = .error (c, q)) :
    ∃ t, step s = .next t ∧ RaisesOnly c (s.setPc q) t :=
  ⟨_, step_of_fetch_error hr hf, raisesOnly_raise c _⟩

/-- R89, R173: an instruction leaves the run state and the cause as they are, or ends the run with a cause. -/
theorem exec_run_cases (h : exec i s = .next t) : SameRun s t ∨ (t.run = .halted ∧ ∃ c, t.cause = some c) := by
  rcases exec_cases h with ⟨c, -, rfl⟩ | ⟨-, heff⟩
  · exact .inr ⟨rfl, c, rfl⟩
  · exact .inl heff.run_cause

/-- R80: in RUNNING there is a step, and it goes on or ends the run with a cause. -/
theorem exists_step (hr : s.run = .running) :
    ∃ t, step s = .next t ∧ (SameRun s t ∨ (t.run = .halted ∧ ∃ c, t.cause = some c)) := by
  rcases hf : fetch s with ⟨c, q⟩ | ⟨i, q⟩
  · exact ⟨_, step_of_fetch_error hr hf, .inr ⟨rfl, c, rfl⟩⟩
  · obtain ⟨t, ht⟩ := exec_next i (s.setPc q)
    exact ⟨t, (step_of_fetch_ok hr hf).trans ht, exec_run_cases (s := s.setPc q) ht⟩

/-! ### The statements -/

/-- Settles O12, for a register and for a memory word at once. -/
theorem cellWriteChangesOneCell : Obligations.CellWriteChangesOneCell :=
  fun d v _ hwf => ⟨writesOnly_cellWrite hwf d v, cellRead_cellWrite hwf d v⟩

/-- Settles O13: a register's cell by definition; a literal's cell is the word it was decoded from. -/
theorem cellReadOfEveryParameter : Obligations.CellReadOfEveryParameter := by
  refine ⟨fun _ _ => rfl, fun i v s => getReg_setReg_same s i v, fun _ _ => rfl, fun s i q k o hf hk => ?_⟩
  refine ⟨fetch_ok_cellRead hf hk, fun v hv => ?_⟩
  subst hv
  exact fetch_ok_literal hf hk

/-- Settles O14, by whether the depth is 1024. -/
theorem pushStoresOrOverflows : Obligations.PushStoresOrOverflows := by
  intro s v hwf hle
  constructor
  · intro hfull
    have hpush : push v s = .error .stackOverflow := push_eq_error.2 ⟨Nat.le_of_eq hfull.symm, rfl⟩
    exact ⟨hpush, finish_error_raisesOnly hpush⟩
  · intro hroom
    have hpush := push_eq_ok (v := v).2 ⟨Nat.lt_of_le_of_ne hle hroom, rfl⟩
    exact ⟨_, hpush, pushesOnly_of_push hwf hpush⟩

/-- Settles O15, by whether the depth is 0; after a push it is not, and the top word is the one pushed. -/
theorem popTakesTopOrUnderflows : Obligations.PopTakesTopOrUnderflows := by
  intro s hwf
  refine ⟨fun hempty => ?_, fun hsp => ?_, fun v t => pop_of_push hwf⟩
  · have hpop : pop s = .error .stackUnderflow := pop_eq_error.2 ⟨hempty, rfl⟩
    exact ⟨hpop, finish_error_raisesOnly (by rw [hpop]; rfl)⟩
  · exact ⟨_, pop_eq_ok.2 ⟨hsp, rfl⟩, rfl, fun _ => rfl, rfl, fun _ => rfl, fun _ => rfl, ⟨rfl, rfl⟩, rfl, rfl, rfl⟩

/-- Settles O18: the fetch is rejected with `pc` where it was. -/
theorem invalidOpcodeEndsTheRun : Obligations.InvalidOpcodeEndsTheRun := fun _ => step_invalidOpcode

/-- Settles O19, by whether the row's parameter words all lie in memory. -/
theorem truncationIsByMemorySize : Obligations.TruncationIsByMemorySize := by
  intro s m hr hp hm
  constructor
  · intro hover
    exact step_fetch_error_raisesOnly hr (fetch_truncated hp (mnemonicOf_eq_some.1 hm) hover)
  · intro hfit
    obtain ⟨i, rfl, hf⟩ := exists_fetch_ok hm hfit
    rw [Instr.length, operands_length] at hf
    exact ⟨i, rfl, hf⟩

/-- Settles O20: a RUNNING step that does not end the run keeps the run state and the absent cause. -/
theorem stepOutcomes : Obligations.StepOutcomes := by
  refine fun s => ⟨step_halted, fun hr hc => ?_⟩
  obtain ⟨t, ht, ⟨hrun, hcause⟩ | hend⟩ := exists_step hr
  · exact ⟨t, ht, .inl ⟨hrun.trans hr, hcause.trans hc⟩⟩
  · exact ⟨t, ht, .inr hend⟩

/-- Settles O29: no effect but a transfer's or a waiting IN's moves `pc`, and a failed JT or JF has no effect. -/
theorem defaultNextInstruction : Obligations.DefaultNextInstruction := by
  refine ⟨fun i s t hi hw h => ?_, fun a b s t hzero h => ?_, fun a b s t hnonzero h => ?_⟩
  · rcases exec_cases h with ⟨c, -, rfl⟩ | ⟨-, heff⟩
    · exact raise_pc s c
    · exact heff.pc_eq hi hw
  · rw [exec_jt, if_pos (BitVec.eq_of_toNat_eq hzero)] at h
    obtain rfl := Host.Outcome.next.inj h
    rfl
  · have hne : value a s ≠ 0 := fun h0 => hnonzero (congrArg BitVec.toNat h0)
    rw [exec_jf, if_neg hne] at h
    obtain rfl := Host.Outcome.next.inj h
    rfl

/-- Settles O16: the words the statement decodes are those the fetch decodes. -/
theorem stepRunsDecodedInstruction : Obligations.StepRunsDecodedInstruction := by
  intro s i n hr hfit hd
  obtain ⟨hlen, hf⟩ := fetch_of_decode hfit hd
  exact ⟨step_of_fetch_ok hr hf, instr_wf_of_decode hd, hlen⟩

/-- Settles O17: the fetch fails with `pc` where it was. -/
theorem pcOutOfBoundsEndsTheRun : Obligations.PcOutOfBoundsEndsTheRun :=
  fun _ hr hp => step_fetch_error_raisesOnly hr (fetch_outOfBounds hp)

end Sys2Proof.Claims
end

section
/-! Move and stack: SET, PUSH and POP (R100 to R102), each by the operation it calls: a cell write (R87), a push (R90) or a
pop (R91). -/

namespace Sys2Proof.Machine

variable {s : State} {a b : Operand}

/-- R100: SET is the write of its destination cell. -/
theorem exec_set : exec (.set a b) s = .next (cellWrite (resolve 2 0 a s) (value b s) s) := rfl

/-- R101: PUSH raises when 1024 words are on the stack. -/
theorem execCause_push (h : 1024 ≤ s.sp) : execCause (.push a) s = some .stackOverflow := if_neg (Nat.not_lt.2 h)

/-- R102: POP raises on an empty stack. -/
theorem execCause_pop (h : s.sp = 0) : execCause (.pop a) s = some .stackUnderflow := if_pos h

end Sys2Proof.Machine

namespace Sys2Proof.Claims

open Sys2Proof.Machine

variable {i : Instr} {s : State} {c : Cause} {a : Operand}

/-- R174: an instruction that raises ends the run and changes nothing else. -/
theorem exec_raisesOnly (h : execCause i s = some c) : ∃ t, exec i s = .next t ∧ RaisesOnly c s t :=
  ⟨_, exec_raises h, raisesOnly_raise c s⟩

/-- R101: with room on the stack, PUSH puts its value there and changes nothing else. -/
theorem exec_push_pushesOnly {size : Nat} (hwf : s.stack.wf size) (h : s.sp < 1024) :
    ∃ t, exec (.push a) s = .next t ∧ PushesOnly (value a s) s.pc s t :=
  ⟨_, exec_push h, pushesOnly_of_push hwf (push_eq_ok.2 ⟨h, rfl⟩)⟩

/-! ### The statements -/

/-- Settles O30: SET is one cell write, which changes its cell only. -/
theorem setCopiesItsSource : Obligations.SetCopiesItsSource :=
  fun _ _ _ hwf => ⟨_, exec_set, writesOnly_cellWrite hwf _ _⟩

/-- Settles O31, by whether the depth is 1024. -/
theorem pushPushesOrOverflows : Obligations.PushPushesOrOverflows := by
  intro a s hwf hle
  constructor
  · intro hroom
    exact exec_push_pushesOnly hwf (Nat.lt_of_le_of_ne hle hroom)
  · intro hfull
    exact exec_raisesOnly (execCause_push (Nat.le_of_eq hfull.symm))

/-- Settles O32, by whether the stack is empty; if not, POP is a cell write in the state with the depth one less. -/
theorem popPopsOrUnderflows : Obligations.PopPopsOrUnderflows := by
  intro a s hwf
  constructor
  · intro hsp
    obtain ⟨hcells, hpc, ⟨hdepth, hwords⟩, hrun, hports⟩ :=
      writesOnly_cellWrite (s := { s with sp := s.sp - 1 }) hwf (resolve 1 0 a s) (s.stack.read (s.sp - 1))
    exact ⟨_, exec_pop hsp, hcells, hdepth, hwords, hpc, hrun, hports⟩
  · intro hempty
    exact exec_raisesOnly (execCause_pop hempty)

end Sys2Proof.Claims
end

section
/-! Comparison: EQ and GT (R110, R111), each one cell write (R87) of the truth value of its comparison. -/

namespace Sys2Proof.Machine

variable {s : State} {a b c : Operand}

/-- R110: EQ is the write of its destination cell. -/
theorem exec_eq :
    exec (.eq a b c) s = .next (cellWrite (resolve 3 0 a s) (if value b s = value c s then 1 else 0) s) := by
  rw [← eqResult_eq]
  rfl

/-- R111: GT is the write of its destination cell. -/
theorem exec_gt :
    exec (.gt a b c) s =
      .next (cellWrite (resolve 3 0 a s) (if (value c s).toNat < (value b s).toNat then 1 else 0) s) := by
  rw [← gtResult_eq]
  rfl

end Sys2Proof.Machine

namespace Sys2Proof.Claims

open Sys2Proof.Machine

/-- Settles O33: EQ and GT are one cell write each, which changes its cell only. -/
theorem eqAndGtWriteOneOrZero : Obligations.EqAndGtWriteOneOrZero := by
  intro a b c s hwf
  constructor
  · exact ⟨_, exec_eq, writesOnly_cellWrite hwf _ _⟩
  · exact ⟨_, exec_gt, writesOnly_cellWrite hwf _ _⟩

end Sys2Proof.Claims
end

section
/-! Control transfer: JMP, JT, JF, CALL and RET (R115 to R119). None checks its target (R120), and RET undoes CALL (R121). -/

namespace Sys2Proof.Machine

variable {s : State} {a b : Operand}

/-- R115. -/
theorem exec_jmp : exec (.jmp a) s = .next (s.setPc (value a s)) := rfl

/-- R116: JT is a jump in either case, to its target or to the next instruction, where `pc` already is. -/
theorem exec_jt_eq_setPc :
    exec (.jt a b) s = .next (s.setPc (if value a s ≠ 0 then value b s else s.pc)) := by
  rw [exec_jt, apply_ite s.setPc, setPc_self, ite_not]

/-- R117: JF is a jump in either case, as JT is. -/
theorem exec_jf_eq_setPc :
    exec (.jf a b) s = .next (s.setPc (if value a s = 0 then value b s else s.pc)) := by
  rw [exec_jf, apply_ite s.setPc, setPc_self]

/-- R118: CALL raises when 1024 words are on the stack. -/
theorem execCause_call (h : 1024 ≤ s.sp) : execCause (.call a) s = some .stackOverflow := if_neg (Nat.not_lt.2 h)

/-- R119: RET raises on an empty stack. -/
theorem execCause_ret (h : s.sp = 0) : execCause .ret s = some .stackUnderflow := if_pos h

end Sys2Proof.Machine

namespace Sys2Proof.Claims

open Sys2Proof.Machine

variable {s t : State} {v p : Word} {a : Operand}

/-- R23: a write of `pc` changes nothing else. -/
theorem jumpsOnly_setPc (v : Word) (s : State) : JumpsOnly v s (s.setPc v) :=
  ⟨rfl, fun _ => rfl, fun _ => rfl, ⟨rfl, fun _ => rfl⟩, ⟨rfl, rfl⟩, rfl, rfl, rfl⟩

/-- A push followed by a jump is a push that sets `pc`. -/
theorem pushesOnly_setPc (h : PushesOnly v p s t) (q : Word) : PushesOnly v q s (t.setPc q) := by
  obtain ⟨hsp, hwords, -, hframe⟩ := h
  exact ⟨hsp, hwords, rfl, hframe⟩

/-- R118: with room on the stack, CALL pushes the address of the next instruction, where `pc` already is, and jumps. -/
theorem pushesOnly_of_exec_call {size : Nat} (hwf : s.stack.wf size) (hroom : s.sp < 1024)
    (h : exec (.call a) s = .next t) : PushesOnly s.pc (value a s) s t := by
  rw [exec_call hroom] at h
  obtain rfl := Host.Outcome.next.inj h
  exact pushesOnly_setPc (pushesOnly_of_push hwf (push_eq_ok.2 ⟨hroom, rfl⟩)) (value a s)

/-! ### The statements -/

/-- Settles O34: each of the three jumps is one write of `pc`. -/
theorem jumpsLoadTheTarget : Obligations.JumpsLoadTheTarget :=
  fun _ _ s => ⟨⟨_, exec_jmp, jumpsOnly_setPc _ s⟩, ⟨_, exec_jt_eq_setPc, jumpsOnly_setPc _ s⟩,
    ⟨_, exec_jf_eq_setPc, jumpsOnly_setPc _ s⟩⟩

/-- Settles O35, by whether the depth is 1024. -/
theorem callPushesAndJumpsOrOverflows : Obligations.CallPushesAndJumpsOrOverflows := by
  intro a s hwf hle
  constructor
  · intro hne
    have hroom : s.sp < 1024 := Nat.lt_of_le_of_ne hle hne
    exact ⟨_, exec_call hroom, pushesOnly_of_exec_call hwf hroom (exec_call hroom)⟩
  · intro hfull
    exact exec_raisesOnly (execCause_call (Nat.le_of_eq hfull.symm))

/-- Settles O36, by whether the stack is empty. -/
theorem retPopsIntoPcOrUnderflows : Obligations.RetPopsIntoPcOrUnderflows := by
  intro s
  constructor
  · intro hsp
    exact ⟨_, exec_ret hsp, rfl, rfl, fun _ => rfl, fun _ => rfl, fun _ => rfl, ⟨rfl, rfl⟩, rfl, rfl, rfl⟩
  · intro hempty
    exact exec_raisesOnly (execCause_ret hempty)

/-- Settles O37: each of the five transfers, when it takes place, loads its target and goes on; the fetch of the next step is
the first to look at it. -/
theorem targetsAreCheckedByTheNextStep : Obligations.TargetsAreCheckedByTheNextStep := by
  intro i s t target hrunning h htransfer
  have hload : ∃ u, exec i s = .next u ∧ u.pc = target ∧ u.run = s.run := by
    rcases htransfer with ⟨a, rfl, rfl⟩ | ⟨a, b, rfl, htrue, rfl⟩ | ⟨a, b, rfl, hfalse, rfl⟩ | ⟨a, rfl, hroom, rfl⟩ |
      ⟨rfl, hsp, rfl⟩
    · exact ⟨_, exec_jmp, rfl, rfl⟩
    · exact ⟨_, exec_jt_eq_setPc, if_pos htrue, rfl⟩
    · exact ⟨_, exec_jf_eq_setPc, if_pos hfalse, rfl⟩
    · exact ⟨_, exec_call hroom, rfl, rfl⟩
    · exact ⟨_, exec_ret hsp, rfl, rfl⟩
  obtain ⟨u, hu, rfl, hrun⟩ := hload
  obtain rfl := Host.Outcome.next.inj (h.symm.trans hu)
  exact ⟨rfl, hrun.trans hrunning, pcOutOfBoundsEndsTheRun t (hrun.trans hrunning)⟩

/-- Settles O38: the top word of the stack CALL left is the address behind it, and the words below are those CALL found. -/
theorem returnGoesBehindTheCall : Obligations.ReturnGoesBehindTheCall := by
  intro a s t u hwf hroom hcall husp huwords
  obtain ⟨htsp, htwords, -⟩ := pushesOnly_of_exec_call hwf hroom hcall
  have hsp : u.sp = s.sp + 1 := husp.trans htsp
  have hread : ∀ k, k < s.sp + 1 → u.stack.read k = if k = s.sp then s.pc else s.stack.read k :=
    fun k hk => (huwords k (htsp ▸ hk)).trans (htwords k)
  refine ⟨_, exec_ret (by omega), ?_, Nat.sub_eq_of_eq_add hsp, fun k hk => ?_⟩
  · calc u.stack.read (u.sp - 1) = u.stack.read s.sp := by rw [hsp, Nat.add_sub_cancel]
      _ = s.pc := by rw [hread s.sp (Nat.lt_succ_self _), if_pos rfl]
  · exact (hread k (Nat.lt_succ_of_lt hk)).trans (if_neg (Nat.ne_of_lt hk))

end Sys2Proof.Claims
end

section
/-! Arithmetic and logic: ADD, MULT, MOD, AND, OR and NOT (R126 to R131), each one cell write (R87) of its result, with the
table of the results (R125) and the domain they stay in (R132). -/

namespace Sys2Proof.Machine

variable {s : State} {a b c : Operand} {vb vc : Word}

/-! ### The next state of each instruction -/

/-- R126. -/
theorem exec_add :
    exec (.add a b c) s = .next (cellWrite (resolve 3 0 a s) (addResult (value b s) (value c s)) s) := rfl

/-- R127. -/
theorem exec_mult :
    exec (.mult a b c) s = .next (cellWrite (resolve 3 0 a s) (multResult (value b s) (value c s)) s) := rfl

/-- R129. -/
theorem exec_and :
    exec (.and a b c) s = .next (cellWrite (resolve 3 0 a s) (andResult (value b s) (value c s)) s) := rfl

/-- R130. -/
theorem exec_or :
    exec (.or a b c) s = .next (cellWrite (resolve 3 0 a s) (orResult (value b s) (value c s)) s) := rfl

/-- R131. -/
theorem exec_not : exec (.not a b) s = .next (cellWrite (resolve 2 0 a s) (notResult (value b s)) s) := rfl

/-- R128: MOD raises on a zero divisor. -/
theorem execCause_mod (h : (value c s).toNat = 0) : execCause (.mod a b c) s = some .undefinedArithmetic := if_pos h

/-! ### The reduced results: ADD, MULT and NOT -/

/-- R125: 32768 divides 2 to the power 16 and to the power 32, so cutting a number there before the reduction loses
nothing. -/
theorem eq_truncated_mod_of_eq_mod {r n : Nat} (h : r = n % 32768) :
    r = n % 32768 ∧ r = n % 2 ^ 16 % 32768 ∧ r = n % 2 ^ 32 % 32768 := by
  have h16 : n % 2 ^ 16 % 32768 = n % 32768 := Nat.mod_mod_of_dvd n (by decide)
  have h32 : n % 2 ^ 32 % 32768 = n % 32768 := Nat.mod_mod_of_dvd n (by decide)
  exact ⟨h, h.trans h16.symm, h.trans h32.symm⟩

/-- R132. -/
theorem toNat_addResult_lt (vb vc : Word) : (addResult vb vc).toNat < 32768 := by
  rw [toNat_addResult]
  exact Nat.mod_lt _ (by decide)

/-- R132. -/
theorem toNat_multResult_lt (vb vc : Word) : (multResult vb vc).toNat < 32768 := by
  rw [toNat_multResult]
  exact Nat.mod_lt _ (by decide)

/-- R131: the complement of the 15 low bits. -/
theorem toNat_notResult_eq_sub (vb : Word) : (notResult vb).toNat = 32767 - vb.toNat % 32768 := by
  rw [toNat_notResult]
  omega

/-- R132. -/
theorem toNat_notResult_lt (vb : Word) : (notResult vb).toNat < 32768 := by
  rw [toNat_notResult]
  exact Nat.mod_lt _ (by decide)

/-! ### The results that are not reduced: MOD, AND and OR -/

/-- R128: the remainder is below the divisor. -/
theorem toNat_modResult_lt (h : vc.toNat ≠ 0) : (modResult vb vc).toNat < vc.toNat := by
  rw [toNat_modResult]
  exact Nat.mod_lt _ (Nat.pos_of_ne_zero h)

/-- R132: the remainder is at most the dividend. -/
theorem toNat_modResult_le (vb vc : Word) : (modResult vb vc).toNat ≤ vb.toNat := by
  rw [toNat_modResult]
  exact Nat.mod_le _ _

/-- R128: the remainder by the quotient rounded down. -/
theorem toNat_modResult_eq_sub (vb vc : Word) :
    (modResult vb vc).toNat = vb.toNat - vc.toNat * (vb.toNat / vc.toNat) := by
  rw [toNat_modResult, Nat.mod_eq_sub_mul_div]

/-- R132: bit 15 of AND is set when it is set in both operands. -/
theorem le_toNat_andResult : 32768 ≤ (andResult vb vc).toNat ↔ 32768 ≤ vb.toNat ∧ 32768 ≤ vc.toNat := by
  rw [← getLsbD_15_iff, ← getLsbD_15_iff, ← getLsbD_15_iff, getLsbD_andResult, Bool.and_eq_true]

/-- R132: bit 15 of OR is set when it is set in either operand. -/
theorem le_toNat_orResult : 32768 ≤ (orResult vb vc).toNat ↔ 32768 ≤ vb.toNat ∨ 32768 ≤ vc.toNat := by
  rw [← getLsbD_15_iff, ← getLsbD_15_iff, ← getLsbD_15_iff, getLsbD_orResult, Bool.or_eq_true]

/-- R125: reducing the AND of two numbers below 32768 changes nothing. -/
theorem toNat_andResult_mod (hb : vb.toNat < 32768) : (andResult vb vc).toNat % 32768 = (andResult vb vc).toNat :=
  Nat.mod_eq_of_lt (Nat.lt_of_not_le fun h => Nat.not_le_of_lt hb (le_toNat_andResult.1 h).1)

/-- R125: reducing the OR of two numbers below 32768 changes nothing. -/
theorem toNat_orResult_mod (hb : vb.toNat < 32768) (hc : vc.toNat < 32768) :
    (orResult vb vc).toNat % 32768 = (orResult vb vc).toNat :=
  Nat.mod_eq_of_lt (Nat.lt_of_not_le fun h => (le_toNat_orResult.1 h).elim (Nat.not_le_of_lt hb) (Nat.not_le_of_lt hc))

/-- R125: reducing the remainder of a number below 32768 changes nothing. -/
theorem toNat_modResult_mod (hb : vb.toNat < 32768) : (modResult vb vc).toNat % 32768 = (modResult vb vc).toNat :=
  Nat.mod_eq_of_lt (Nat.lt_of_le_of_lt (toNat_modResult_le vb vc) hb)

end Sys2Proof.Machine

namespace Sys2Proof.Claims

open Sys2Proof.Machine

/-- Settles O39: each instruction writes the result its row of the table gives. -/
theorem arithmeticResultTable : Obligations.ArithmeticResultTable := by
  intro a b c s
  refine ⟨?add, ?mult, ?not, ?mod, ?and, ?or⟩
  case add => exact ⟨_, exec_add, eq_truncated_mod_of_eq_mod (toNat_addResult _ _)⟩
  case mult => exact ⟨_, exec_mult, eq_truncated_mod_of_eq_mod (toNat_multResult _ _)⟩
  case not => exact ⟨_, exec_not, toNat_notResult _⟩
  case mod => exact fun hdiv => ⟨_, exec_mod hdiv, toNat_modResult _ _, fun hb _ => toNat_modResult_mod hb⟩
  case and => exact ⟨_, exec_and, fun k _ => getLsbD_andResult _ _ k, fun hb _ => toNat_andResult_mod hb⟩
  case or => exact ⟨_, exec_or, fun k _ => getLsbD_orResult _ _ k, toNat_orResult_mod⟩

/-- Settles O40: ADD and MULT are one cell write each, which changes its cell only. -/
theorem addAndMultReduce : Obligations.AddAndMultReduce := by
  intro a b c s hwf
  constructor
  · exact ⟨_, _, exec_add, writesOnly_cellWrite hwf _ _, toNat_addResult _ _⟩
  · exact ⟨_, _, exec_mult, writesOnly_cellWrite hwf _ _, toNat_multResult _ _⟩

/-- Settles O41, by whether the divisor is 0. -/
theorem modWritesTheRemainderOrRaises : Obligations.ModWritesTheRemainderOrRaises := by
  intro a b c s hwf
  constructor
  · intro hne
    have hdiv : (value c s).toNat ≠ 0 := fun h => hne (BitVec.eq_of_toNat_eq h)
    exact ⟨_, _, exec_mod hdiv, writesOnly_cellWrite hwf _ _, toNat_modResult_eq_sub _ _, toNat_modResult_lt hdiv⟩
  · intro hzero
    exact exec_raisesOnly (execCause_mod (congrArg BitVec.toNat hzero))

/-- Settles O42: AND and OR are one cell write each, which changes its cell only. -/
theorem andAndOrAreBitwise : Obligations.AndAndOrAreBitwise := by
  intro a b c s hwf
  constructor
  · exact ⟨_, _, exec_and, writesOnly_cellWrite hwf _ _, getLsbD_andResult _ _⟩
  · exact ⟨_, _, exec_or, writesOnly_cellWrite hwf _ _, getLsbD_orResult _ _⟩

/-- Settles O43: NOT is one cell write, which changes its cell only. -/
theorem notComplementsFifteenBits : Obligations.NotComplementsFifteenBits :=
  fun _ _ _ hwf => ⟨_, _, exec_not, writesOnly_cellWrite hwf _ _, toNat_notResult_eq_sub _⟩

/-- Settles O44: a reduced result is below the modulus, AND and OR leave the domain by their bit 15, and the remainder is at
most the dividend and below the divisor. -/
theorem domainClosure : Obligations.DomainClosure := by
  intro b c
  refine ⟨Nat.le_of_lt_succ (toNat_addResult_lt b c), Nat.le_of_lt_succ (toNat_multResult_lt b c),
    Nat.le_of_lt_succ (toNat_notResult_lt b), le_toNat_andResult, le_toNat_orResult, ?_⟩
  intro hdiv hout
  exact ⟨Nat.lt_of_lt_of_le hout (toNat_modResult_le b c), Nat.lt_of_le_of_lt hout (toNat_modResult_lt hdiv)⟩

end Sys2Proof.Claims
end

section
/-! Memory access: RMEM and WMEM (R140, R141) are one cell write (R87) inside main memory and raise `OutOfBounds` outside it. -/

namespace Sys2Proof.Machine

variable {s : State} {a b : Operand}

/-- R140: an address above 32767 is a condition of RMEM. -/
theorem execCause_rmem (h : 32767 < (value b s).toNat) :
    execCause (.rmem a b) s = some (.outOfBounds (.ea (value b s))) := if_neg (Nat.not_le.2 h)

/-- R141: an address above 32767 is a condition of WMEM. -/
theorem execCause_wmem (h : 32767 < (value a s).toNat) :
    execCause (.wmem a b) s = some (.outOfBounds (.ea (value a s))) := if_neg (Nat.not_le.2 h)

end Sys2Proof.Machine

namespace Sys2Proof.Claims

open Sys2Proof.Machine

/-- Settles O45, by whether the address lies in main memory: RMEM is one cell write, which changes its cell only. -/
theorem rmemLoadsOrRaises : Obligations.RmemLoadsOrRaises := by
  intro a b s hwf
  constructor
  · intro hin
    exact ⟨_, exec_rmem (Nat.lt_succ_of_le hin), writesOnly_cellWrite hwf _ _⟩
  · intro hout
    exact exec_raisesOnly (execCause_rmem hout)

/-- Settles O46, by whether the address lies in main memory: WMEM is the write of that memory cell, which changes it only. -/
theorem wmemStoresOrRaises : Obligations.WmemStoresOrRaises := by
  intro a b s hwf
  constructor
  · intro hin
    exact ⟨_, exec_wmem_eq_cellWrite (Nat.lt_succ_of_le hin), writesOnly_cellWrite hwf _ _⟩
  · intro hout
    exact exec_raisesOnly (execCause_wmem hout)

end Sys2Proof.Claims
end

section
/-! System and character ports: HALT, NOOP, OUT and IN (R145 to R151), and that nothing flows back from the output (R148). -/

namespace Sys2Proof.Machine

variable {i : Instr} {s : State} {a : Operand} {q : Word}

/-! ### The next state of each instruction -/

/-- R146. -/
theorem exec_noop : exec .noop s = .next s := rfl

/-- R147. -/
theorem exec_out : exec (.out a) s = .next (outByte ((value a s).setWidth 8) s) := rfl

/-- R149: IN raises when the stream has ended. -/
theorem execCause_in (h : s.input = []) (he : s.inputEnded = true) : execCause (.inp a) s = some .inputExhausted :=
  if_pos ⟨h, he⟩

/-! ### An IN that waits (R151) -/

/-- R64: the row IN has one parameter. -/
theorem exists_eq_inp_of_mnemonic (h : i.mnemonic = .IN) : ∃ a, i = .inp a := by
  cases i <;> simp only [Instr.mnemonic, reduceCtorEq] at h
  case inp a => exact ⟨a, rfl⟩

/-- R84: the two words of an IN. -/
theorem fetch_inp_next (h : fetch s = .ok (.inp a, q)) : q = s.pc + 2 := by
  obtain ⟨-, -, -, hq⟩ := fetch_eq_ok.1 h
  exact hq

/-- R151: the wait sets `pc` back to the opcode word. -/
theorem awaitInput_setPc_add (n : Nat) (s : State) : awaitInput n (s.setPc (s.pc + BitVec.ofNat 16 n)) = s := by
  rw [awaitInput_eq, setPc_pc, BitVec.add_sub_cancel, setPc_setPc, setPc_self]

/-- The fetch looks at `pc` and at memory, which the host's supply leaves alone. -/
theorem fetch_supply (chars : List Byte) (ended : Bool) : fetch (s.supply chars ended) = fetch s := rfl

end Sys2Proof.Machine

namespace Sys2Proof.Claims

open Sys2Proof.Machine

variable {s : State} {o : List Byte} {a : Operand}

/-! ### A state with bytes before its output -/

/-- `f` applied to the next state of an outcome; a fault or a refusal stays as it is. -/
def mapNext (f : State → State) : Host.Outcome State Fault Refusal → Host.Outcome State Fault Refusal
  | .next t => .next (f t)
  | .fault e => .fault e
  | .refused r => .refused r

theorem value_withEarlierOutput : value a (withEarlierOutput o s) = value a s := by cases a <;> rfl

theorem resolve_withEarlierOutput (n k : Nat) : resolve n k a (withEarlierOutput o s) = resolve n k a s := by
  cases a <;> rfl

theorem cellWrite_withEarlierOutput (d : Cell) (v : Word) :
    cellWrite d v (withEarlierOutput o s) = withEarlierOutput o (cellWrite d v s) := by cases d <;> rfl

theorem outByte_withEarlierOutput (b : Byte) :
    outByte b (withEarlierOutput o s) = withEarlierOutput o (outByte b s) := by
  rw [outByte, outByte, List.append_assoc]

theorem push_withEarlierOutput (v : Word) :
    push v (withEarlierOutput o s) = (push v s).map (withEarlierOutput o) := by
  unfold push
  split <;> rfl

theorem pop_withEarlierOutput :
    pop (withEarlierOutput o s) = (pop s).map (Prod.map id (withEarlierOutput o)) := by
  unfold pop
  split <;> rfl

theorem memWrite_withEarlierOutput (v w : Word) :
    memWrite v w (withEarlierOutput o s) = (memWrite v w s).map (withEarlierOutput o) := by
  unfold memWrite
  split <;> rfl

/-- An instruction that may raise ends alike when its operation, run with the earlier output, gives the same result up to
that output. -/
theorem finish_map_withEarlierOutput {α β : Type} {r : Except Cause α} {r' : Except Cause β} {g : α → β}
    {f : α → State} {f' : β → State} (hr : r' = r.map g) (hf : ∀ x, f' (g x) = withEarlierOutput o (f x)) :
    finish (withEarlierOutput o s) (r'.map f') = mapNext (withEarlierOutput o) (finish s (r.map f)) := by
  subst hr
  cases r with
  | error c => rfl
  | ok x => exact congrArg Host.Outcome.next (hf x)

theorem finish_withEarlierOutput (r : Except Cause State) :
    finish (withEarlierOutput o s) (r.map (withEarlierOutput o)) = mapNext (withEarlierOutput o) (finish s r) := by
  cases r <;> rfl

/-- R149, R151: an IN that reads, waits or meets the end of the stream does so with any earlier output. -/
theorem exec_in_withEarlierOutput (a : Operand) (s : State) (o : List Byte) :
    exec (.inp a) (withEarlierOutput o s) = mapNext (withEarlierOutput o) (exec (.inp a) s) := by
  rcases hin : s.input with _ | ⟨ch, rest⟩
  · rcases he : s.inputEnded with _ | _
    · rw [exec_in_waits hin he, exec_in_waits (s := withEarlierOutput o s) hin he]
      rfl
    · rw [exec_raises (execCause_in hin he), exec_raises (execCause_in (s := withEarlierOutput o s) hin he)]
      rfl
  · rw [exec_in hin, exec_in (s := withEarlierOutput o s) hin, resolve_withEarlierOutput]
    exact congrArg Host.Outcome.next (cellWrite_withEarlierOutput (s := { s with input := rest }) _ _)

/-- R148: no instruction looks at the bytes emitted before it. -/
theorem exec_withEarlierOutput (i : Instr) (s : State) (o : List Byte) :
    exec i (withEarlierOutput o s) = mapNext (withEarlierOutput o) (exec i s) := by
  cases i
  case halt => rfl
  case noop => rfl
  case ret => exact finish_map_withEarlierOutput pop_withEarlierOutput fun _ => rfl
  case jmp a => rw [exec_jmp, exec_jmp, value_withEarlierOutput]; rfl
  case jt a b =>
    rw [exec_jt, exec_jt, value_withEarlierOutput, value_withEarlierOutput]
    split <;> rfl
  case jf a b =>
    rw [exec_jf, exec_jf, value_withEarlierOutput, value_withEarlierOutput]
    split <;> rfl
  case out a => rw [exec_out, exec_out, value_withEarlierOutput, outByte_withEarlierOutput]; rfl
  case push a =>
    simp only [exec, execPush, value_withEarlierOutput, push_withEarlierOutput, finish_withEarlierOutput]
  case wmem a b =>
    simp only [exec, execWmem, value_withEarlierOutput, memWrite_withEarlierOutput, finish_withEarlierOutput]
  case call a =>
    simp only [exec, execCall, value_withEarlierOutput]
    exact finish_map_withEarlierOutput (push_withEarlierOutput _) fun _ => rfl
  case pop a =>
    simp only [exec, execPop, resolve_withEarlierOutput]
    exact finish_map_withEarlierOutput pop_withEarlierOutput fun _ => cellWrite_withEarlierOutput _ _
  case rmem a b =>
    simp only [exec, execRmem, value_withEarlierOutput, resolve_withEarlierOutput]
    exact finish_map_withEarlierOutput (congrFun Except.map_id _).symm fun _ => cellWrite_withEarlierOutput _ _
  case mod a b d =>
    simp only [exec, execMod, value_withEarlierOutput, resolve_withEarlierOutput, cellWrite_withEarlierOutput]
    split <;> rfl
  case inp a => exact exec_in_withEarlierOutput a s o
  -- What is left writes one cell with a result of its sources.
  all_goals
    simp only [exec, execSet, execNot, execEq, execGt, execAdd, execMult, execAnd, execOr, mapNext,
      value_withEarlierOutput, resolve_withEarlierOutput, cellWrite_withEarlierOutput]

theorem fetch_withEarlierOutput : fetch (withEarlierOutput o s) = fetch s := rfl

/-- R148, R29: a step and earlier output commute. -/
theorem step_withEarlierOutput (s : State) (o : List Byte) :
    step (withEarlierOutput o s) = mapNext (withEarlierOutput o) (step s) := by
  rcases hr : s.run with _ | _
  · rcases hf : fetch s with ⟨c, q⟩ | ⟨i, q⟩
    · rw [step_of_fetch_error hr hf, step_of_fetch_error (s := withEarlierOutput o s) hr (fetch_withEarlierOutput.trans hf)]
      rfl
    · rw [step_of_fetch_ok hr hf, step_of_fetch_ok (s := withEarlierOutput o s) hr (fetch_withEarlierOutput.trans hf)]
      exact exec_withEarlierOutput i (s.setPc q) o
  · rw [step_halted hr, step_halted (s := withEarlierOutput o s) hr]
    rfl

/-! ### The statements -/

/-- Settles O48: HALT is one raise, and NOOP leaves `pc` as it leaves all else. -/
theorem haltEndsTheRunAndNoopDoesNothing : Obligations.HaltEndsTheRunAndNoopDoesNothing := by
  intro s
  constructor
  · exact exec_raisesOnly rfl
  · exact ⟨s, exec_noop, jumpsOnly_setPc s.pc s⟩

/-- Settles O49: OUT is one byte appended, and the low byte of a number is its remainder by 256. -/
theorem outAppendsTheLowByte : Obligations.OutAppendsTheLowByte :=
  fun _ _ => ⟨_, _, exec_out, BitVec.toNat_setWidth _ _, rfl, rfl, rfl, rfl, fun _ => rfl, fun _ => rfl,
    ⟨rfl, fun _ => rfl⟩, rfl, rfl⟩

/-- Settles O50: with a character there, IN is a cell write in the state without it; at the end of the stream it raises. -/
theorem inReadsOneCharacterOrRaises : Obligations.InReadsOneCharacterOrRaises := by
  intro a s hwf
  constructor
  · intro ch rest hin
    obtain ⟨hcells, hpc, hstack, hrun, hout, hinput, hended⟩ :=
      writesOnly_cellWrite (s := { s with input := rest }) hwf (resolve 1 0 a s) (ch.setWidth 16)
    have hzext : (ch.setWidth 16).toNat = ch.toNat := BitVec.toNat_setWidth_of_le (by decide)
    exact ⟨_, _, exec_in hin, hzext, hcells, hinput, hended, hout, hpc, hstack, hrun⟩
  · intro hin hended
    exact exec_raisesOnly (execCause_in hin hended)

/-- Settles O51: the wait undoes the fetch, and with a character supplied the same fetch leads to an IN that reads it. -/
theorem inWaitsWithoutChange : Obligations.InWaitsWithoutChange := by
  intro s i q hr hf ⟨hi, hin, hended⟩
  obtain ⟨a, rfl⟩ := exists_eq_inp_of_mnemonic hi
  obtain rfl := fetch_inp_next hf
  constructor
  · calc step s = exec (.inp a) (s.setPc (s.pc + 2)) := step_of_fetch_ok hr hf
      _ = .next (awaitInput 2 (s.setPc (s.pc + 2))) := exec_in_waits hin hended
      _ = .next s := congrArg Host.Outcome.next (awaitInput_setPc_add 2 s)
  · intro ch rest ended
    have hready : (s.supply (ch :: rest) ended).input = ch :: rest := by rw [supply_input, hin, List.nil_append]
    have hstep := step_of_fetch_ok (s := s.supply (ch :: rest) ended) hr ((fetch_supply _ _).trans hf)
    refine ⟨_, hstep.trans (exec_in hready), ?_, ?_, ?_⟩
    · exact cellWrite_input _ _ _
    · exact cellWrite_pc _ _ _
    · exact (cellWrite_run _ _ _).trans hr

/-- Settles O52: a step from the state with the earlier output is the step without it, that output put before its own. -/
theorem earlierOutputChangesNoStep : Obligations.EarlierOutputChangesNoStep :=
  fun s o => ⟨fun _ h => (step_withEarlierOutput s o).trans (congrArg _ h),
    fun _ h => (step_withEarlierOutput s o).trans (congrArg _ h)⟩

end Sys2Proof.Claims
end

section
/-! Exceptions: which cause a step raises (R160 to R169, R173), and the state it leaves when it raises one (R172, R174). -/

namespace Sys2Proof.Claims

open Sys2Proof.Machine

variable {i : Instr} {s t : State} {c : Cause} {q : Word} {m : Mnemonic}

/-! ### The cause of a fetch and of an instruction -/

/-- R81 to R83, R172: a failed fetch gives the step its cause, and leaves `pc` where the table has it. -/
theorem fetch_error_cause_pc (h : fetch s = .error (c, q)) (m : Option Mnemonic) :
    stepCause s = some c ∧ q = haltedPc m s.pc c := by
  refine ⟨by rw [stepCause_eq, h], ?_⟩
  rcases fetch_cases s with ⟨-, hf⟩ | ⟨-, -, hf⟩ | ⟨-, -, -, -, hf⟩ | ⟨i, -, -, hf⟩ <;> cases hf.symm.trans h <;> rfl

/-- R173: the condition of an instruction is its row's. -/
theorem rowRaises_of_execCause (h : execCause i s = some c) : rowRaises i.mnemonic c := by
  cases i <;> simp only [execCause, reduceCtorEq] at h
  case halt => exact (Option.some.inj h).symm
  case rmem a b =>
    obtain ⟨hout, ⟨⟩⟩ := Option.ite_none_left_eq_some.1 h
    exact ⟨value b s, Nat.lt_of_not_le hout, rfl⟩
  case wmem a b =>
    obtain ⟨hout, ⟨⟩⟩ := Option.ite_none_left_eq_some.1 h
    exact ⟨value a s, Nat.lt_of_not_le hout, rfl⟩
  case push a => exact (Option.some.inj (Option.ite_none_left_eq_some.1 h).2).symm
  case call a => exact (Option.some.inj (Option.ite_none_left_eq_some.1 h).2).symm
  -- POP, RET, MOD and IN raise when their condition holds.
  all_goals exact (Option.some.inj (Option.ite_none_right_eq_some.1 h).2).symm

/-- R172: where a row's cause leaves `pc` is behind the words of the row. -/
theorem haltedPc_of_rowRaises (h : rowRaises m c) (start : Word) :
    haltedPc (some m) start c = start + BitVec.ofNat 16 (1 + m.nparams) := by
  cases m <;> simp only [rowRaises] at h
  case RMEM => obtain ⟨ea, -, rfl⟩ := h; rfl
  case WMEM => obtain ⟨ea, -, rfl⟩ := h; rfl
  all_goals subst h; rfl

/-- R172: an instruction that raises, `pc` being behind its words, leaves `pc` where the table has it. -/
theorem fetch_ok_raise_pc (hf : fetch s = .ok (i, q)) (hc : execCause i (s.setPc q) = some c) :
    q = haltedPc (mnemonicOf (s.mem.read s.pc.toNat)) s.pc c := by
  obtain ⟨-, hop, -, rfl⟩ := fetch_eq_ok.1 hf
  rw [mnemonicOf_eq_some.2 hop, haltedPc_of_rowRaises (rowRaises_of_execCause hc), Instr.length, operands_length]

/-! ### What a step does to the run -/

/-- R172, R173, R174: a step whose cause is `c` is the raise of `c`, with `pc` where the table has it; a step without a cause
leaves the run state and the cause. -/
theorem step_raises_or_goes_on (h : step s = .next t) :
    (∃ c, stepCause s = some c ∧
      t = raise c (s.setPc (haltedPc (mnemonicOf (s.mem.read s.pc.toNat)) s.pc c))) ∨
    (stepCause s = none ∧ SameRun s t) := by
  obtain ⟨-, ⟨c, q, hf, rfl⟩ | ⟨i, q, hf, he⟩⟩ := step_cases h
  · obtain ⟨hcause, rfl⟩ := fetch_error_cause_pc hf (mnemonicOf (s.mem.read s.pc.toNat))
    exact .inl ⟨c, hcause, rfl⟩
  · have hcause : stepCause s = execCause i (s.setPc q) := by rw [stepCause_eq, hf]
    rcases exec_cases he with ⟨c, hc, rfl⟩ | ⟨hc, heff⟩
    · exact .inl ⟨c, hcause.trans hc, by rw [← fetch_ok_raise_pc hf hc]⟩
    · exact .inr ⟨hcause.trans hc, heff.run_cause⟩

/-! ### The statements -/

/-- Settles O21: a raise records the cause of the step in HALTED, and a step that goes on records none. -/
theorem stepRaisesExactlyTheFirstCondition : Obligations.StepRaisesExactlyTheFirstCondition := by
  intro s t hr hnone h
  rcases step_raises_or_goes_on h with ⟨c, hc, rfl⟩ | ⟨hc, hrun, hcause⟩
  · simp [hc]
  · simp [hc, hrun, hcause, hr, hnone]

/-- Settles O22: an instruction raises its condition's cause, which is its row's, or leaves the run as it is. -/
theorem eachRowRaisesItsOwnCause : Obligations.EachRowRaisesItsOwnCause := by
  intro i s t h
  rcases exec_cases h with ⟨c, hc, rfl⟩ | ⟨-, heff⟩
  · exact .inr ⟨rfl, c, rfl, rowRaises_of_execCause hc⟩
  · exact .inl heff.run_cause

/-- Settles O23: the step is a raise, which changes only `pc` and the run, for a step that goes on is still RUNNING. -/
theorem faultsArePrecise : Obligations.FaultsArePrecise := by
  intro s t hr h hend
  rcases step_raises_or_goes_on h with ⟨c, -, rfl⟩ | ⟨-, hrun, -⟩
  · exact ⟨fun _ => rfl, fun _ => rfl, ⟨rfl, fun _ => rfl⟩, rfl, rfl, rfl⟩
  · simp [hrun, hr] at hend

/-- Settles O24: a raise keeps the `pc` of the table, and a step that goes on records no cause. -/
theorem pcLeftInHalted : Obligations.PcLeftInHalted := by
  intro s t c _ hnone h hcause
  rcases step_raises_or_goes_on h with ⟨c', -, rfl⟩ | ⟨-, -, hsame⟩
  · obtain rfl : c' = c := Option.some.inj hcause
    rfl
  · simp [hsame, hnone] at hcause

/-- Settles O25: a step exists in RUNNING only, where the invariant has no cause recorded, and it records that of the step. -/
theorem safeStepsRaiseNoFailure : Obligations.SafeStepsRaiseNoFailure := by
  rintro s ⟨-, -, -, hinv⟩
  have hcause : ∀ {t}, s.run = .running → step s = .next t → t.cause = stepCause s := fun hr h =>
    (stepRaisesExactlyTheFirstCondition s _ hr (by simpa [hr] using hinv) h).1
  constructor
  · rintro ⟨hr, hsafe⟩
    obtain ⟨t, ht, -⟩ := exists_step hr
    exact ⟨t, ht, by rwa [hcause hr ht]⟩
  · rintro ⟨t, ht, hsafe⟩
    obtain ⟨hr, -⟩ := step_cases ht
    exact ⟨hr, by rwa [← hcause hr ht]⟩

end Sys2Proof.Claims
end
